-- ==== Sys2Proof/Word.lean ====
section
/-!
DEFINITION. Digits: the unsigned `W`-bit values of spec/00_scope.md R5 and R9.
-/

namespace Sys2Proof

/-- A Digit: "a fixed-width unsigned integer of width W bits" (R5). -/
abbrev Digit (W : Nat) := BitVec W

/-- `MAX = 2^W - 1`, the largest digit (R9). -/
def maxDigit (W : Nat) : Digit W := BitVec.allOnes W

/-- `zext_W` of a boolean carry: the digit 0 or 1 (R9, R67). -/
def carryDigit (W : Nat) (c : Bool) : Digit W := BitVec.ofNat W c.toNat

end Sys2Proof
end

