-- ==== Sys2Proof/Machine/Flags.lean ====
section
/-!
DEFINITION. The arithmetic of the block and its carries, as pure functions of digits of any width (spec/00_scope.md
R11, spec/40_digit_add_with_carry.md, spec/41_digit_multiply_add_with_carry.md).
-/

namespace Sys2Proof.Machine

/-- `addc_W`: the wrapped sum, and whether the true sum reached `2^W` (R11). -/
def addc {W : Nat} (x y : Digit W) : Digit W × Bool :=
  (x + y, decide (2 ^ W ≤ x.toNat + y.toNat))

/-- `mulwide_W`: the high and the low digit of the product (R11). -/
def mulwide {W : Nat} (x y : Digit W) : Digit W × Digit W :=
  (BitVec.ofNat W (x.toNat * y.toNat / 2 ^ W), BitVec.ofNat W (x.toNat * y.toNat))

/-- `dadc(x, y, c)`, the pure function of `DADC` in the two-step form that is the datapath (R67): result digit and
carry-out. -/
def dadc {W : Nat} (x y : Digit W) (c : Bool) : Digit W × Bool :=
  let first := addc x y
  if first.2 then (first.1 + carryDigit W c, true)
  else addc first.1 (carryDigit W c)

/-- The one addition in `2W` bits of the widened form (R68). -/
def dadcSum {W : Nat} (x y : Digit W) (c : Bool) : BitVec (2 * W) :=
  x.setWidth (2 * W) + y.setWidth (2 * W) + (carryDigit W c).setWidth (2 * W)

/-- The widened form of `dadc` (R68): the sum split into its low digit and bit `W`. -/
def dadcWide {W : Nat} (x y : Digit W) (c : Bool) : Digit W × Bool :=
  ((dadcSum x y c).extractLsb' 0 W, (dadcSum x y c).getLsbD W)

/-- The `2W`-bit accumulator of `DMAC` (R76). -/
def dmacSum {W : Nat} (a b c k : Digit W) : BitVec (2 * W) :=
  a.setWidth (2 * W) + b.setWidth (2 * W) * c.setWidth (2 * W) + k.setWidth (2 * W)

/-- The pure function of `DMAC` (R76): the accumulator's low digit and its high digit, the carry-out. -/
def dmac {W : Nat} (a b c k : Digit W) : Digit W × Digit W :=
  ((dmacSum a b c k).extractLsb' 0 W, (dmacSum a b c k).extractLsb' W W)

/-- The same computation with `W`-bit values only, the two-limb form (R79). -/
def dmacLimbs {W : Nat} (a b c k : Digit W) : Digit W × Digit W :=
  let product := mulwide b c
  let withA := addc product.2 a
  let withK := addc withA.1 k
  (withK.1, product.1 + carryDigit W withA.2 + carryDigit W withK.2)

end Sys2Proof.Machine
end

