-- ==== Sys2Proof/Config.lean ====
section
/-!
DEFINITION. What is fixed when the hardware is built (spec/00_scope.md R1, R5, R6, R7), and the one value the
spec leaves unspecified (spec/70_reset_and_hazards.md R137).
-/

namespace Sys2Proof

/-- The implementation parameters (R5, R6, R7).  A build carries the proof of the bounds the rules set, so every
build is one the rules speak of. -/
structure Build where
  /-- `W`, bits per digit (R5). -/
  W : Nat
  /-- `AW`, bits per digit address and per sequence length (R6). -/
  AW : Nat
  /-- `MEMDIGITS`, the number of cells of `DM` (R7). -/
  memDigits : Nat
  /-- `W >= 1` (R5). -/
  W_pos : 1 ≤ W := by decide
  /-- `AW >= 1` (R6). -/
  AW_pos : 1 ≤ AW := by decide
  /-- `MEMDIGITS <= 2^AW` (R7). -/
  mem_le : memDigits ≤ 2 ^ AW := by decide
deriving DecidableEq, Repr

/-- "The supported builds are `W = 32` and `W = 64`" (R5).  The rules, and so the model, hold for every build. -/
def Build.supported (b : Build) : Bool := b.W == 32 || b.W == 64

/-- The block's identity string (R1). -/
def Build.identity (b : Build) : String :=
  "digit_add_with_carry/ejpbruel2-geometry/W" ++ toString b.W

/-- A `W = 32` build, with the `AW` and `MEMDIGITS` that spec/95_test_vectors.md takes for its vectors. -/
def Config.build32 : Build := { W := 32, AW := 32, memDigits := 0x100 }

/-- A `W = 64` build, with the same `AW` and `MEMDIGITS`. -/
def Config.build64 : Build := { W := 64, AW := 32, memDigits := 0x100 }

/-- The build of `State.reset`.  DESIGN CHOICE (log 1): the spec leaves `AW` and `MEMDIGITS` open and supports two
widths; nothing in the model but `State.reset` and `decodeTableWord` names this build. -/
def Config.resetBuild : Build := Config.build32

/-- FREE VALUE (log 2): the digit a cell of `DM` holds while nothing has written it since power-up, "any digit, not
necessarily 0, not necessarily the same on two power-ups" (R137).  `power` tells one power-up from another.  It has
no body: nothing can evaluate it or prove a value of it. -/
opaque Config.powerUpDigit (W : Nat) (power : Nat) (addr : Nat) : Digit W

end Sys2Proof
end

