-- ==== Sys2Proof/Syntax.lean ====
section
/-!
DEFINITION. What the host can say to the block: registers, commands, the instructions of spec/opcode_table.json,
raw transactions on the register port, and the lines of a host program (spec/30_encoding.md R51 to R63).
-/

namespace Sys2Proof

/-- The register names of the port (spec/10_state.md R13), the four reserved indices 12 to 15 included (R23). -/
inductive Reg where
  | A | B | C | K | CF | PA | NA | PB | NB | IDX | STATUS | CMD
  /-- Reserved index `12 + n`. -/
  | reserved (n : Fin 4)
deriving DecidableEq, Repr

/-- What a write to `CMD` can start (R56). -/
inductive Command where
  | dadc | dmac | rca | ccp
deriving DecidableEq, Repr

/-- One constructor per row of spec/opcode_table.json.  The four commands are spelled by their own constructors
(their words are writes of `0x01` to `0x04` to `CMD`, R61); every other write, an illegal command word among them,
is `wr`. -/
inductive Instr where
  /-- `DADC`, digit add with carry (R65). -/
  | dadc
  /-- `DMAC`, digit multiply-add with carry (R74). -/
  | dmac
  /-- `RCA`, ripple-carry add-assign (R83). -/
  | rca
  /-- `CCP`, propagate a carry up a sequence (R97). -/
  | ccp
  /-- `WR reg, value` (R107, R109, R113). -/
  | wr (reg : Reg) (value : Nat)
  /-- `RD reg` (R108, R113). -/
  | rd (reg : Reg)
deriving DecidableEq, Repr

/-- Data on a port together with its width: `wdata` and `rdata` have the width of the register addressed (R53). -/
structure PortData where
  width : Nat
  bits : BitVec width
deriving DecidableEq, Repr

/-- Format `T`, a raw transaction on the register port: a triple of fields and not a packed word (R51). -/
structure Transaction where
  /-- `we`: 1 = write, 0 = read. -/
  we : Bool
  /-- `idx`, the register index. -/
  idx : BitVec 4
  /-- `wdata`, "present only when `we = 1`". -/
  wdata : Option PortData
deriving DecidableEq, Repr

/-- A line of a host program (R60, R63): a transaction on the register port, or one of the three lines that have
no encoding on it (R62). -/
inductive HostLine (W : Nat) where
  /-- A transaction on the register port: `WR`, `RD` or one of the four commands. -/
  | port (t : Transaction)
  /-- `MW addr, v`: the host writes `DM[addr]` (R110). -/
  | mw (addr : Nat) (v : Digit W)
  /-- `MR addr`: the host reads `DM[addr]` (R111). -/
  | mr (addr : Nat)
  /-- `RESET`: the reset input (R112). -/
  | reset
deriving DecidableEq, Repr

end Sys2Proof
end

