-- ==== Sys2Proof/Machine/PortMap.lean ====
section
/-!
DEFINITION. The encoding tables of spec/30_encoding.md: register indices (R52), register widths on the port (R53)
and command words (R56).
-/

namespace Sys2Proof

/-- The index of a register (R13, R52). -/
def Reg.index : Reg → BitVec 4
  | .A => 0x0#4
  | .B => 0x1#4
  | .C => 0x2#4
  | .K => 0x3#4
  | .CF => 0x4#4
  | .PA => 0x5#4
  | .NA => 0x6#4
  | .PB => 0x7#4
  | .NB => 0x8#4
  | .IDX => 0x9#4
  | .STATUS => 0xA#4
  | .CMD => 0xB#4
  | .reserved n => BitVec.ofNat 4 (12 + n.val)

/-- The register that an index selects (R52); every one of the sixteen selects one. -/
def Reg.ofIndex (idx : BitVec 4) : Reg :=
  if idx = 0x0#4 then .A
  else if idx = 0x1#4 then .B
  else if idx = 0x2#4 then .C
  else if idx = 0x3#4 then .K
  else if idx = 0x4#4 then .CF
  else if idx = 0x5#4 then .PA
  else if idx = 0x6#4 then .NA
  else if idx = 0x7#4 then .PB
  else if idx = 0x8#4 then .NB
  else if idx = 0x9#4 then .IDX
  else if idx = 0xA#4 then .STATUS
  else if idx = 0xB#4 then .CMD
  else if idx = 0xC#4 then .reserved 0
  else if idx = 0xD#4 then .reserved 1
  else if idx = 0xE#4 then .reserved 2
  else .reserved 3

/-- The width of `wdata` and `rdata` for a register (R53). -/
def Reg.width (b : Build) : Reg → Nat
  | .A | .B | .C | .K => b.W
  | .CF => 1
  | .PA | .NA | .PB | .NB | .IDX => b.AW
  | .STATUS | .CMD | .reserved _ => 8

/-- The command word of a command (R56). -/
def Command.opcode : Command → BitVec 8
  | .dadc => 0x01#8
  | .dmac => 0x02#8
  | .rca => 0x03#8
  | .ccp => 0x04#8

/-- The instruction that a command's word spells (R61). -/
def Command.instr : Command → Instr
  | .dadc => .dadc
  | .dmac => .dmac
  | .rca => .rca
  | .ccp => .ccp

/-- Is `v` one of the four command words (R57)? -/
def isCommandWord (v : Nat) : Bool :=
  [Command.dadc, .dmac, .rca, .ccp].any fun c => v == c.opcode.toNat

end Sys2Proof
end

