-- ==== Sys2Proof/WellFormed.lean ====
section
/-!
DEFINITION. Which instructions can be presented on the register port (spec/30_encoding.md R53), each in its one
spelling (R61).
-/

namespace Sys2Proof

/-- Two checks, both on `WR`: "a value wider than the register cannot be presented" (R53); and a write of a command
word to `CMD` is spelled by the command's own constructor (R61), so that each transaction has one spelling. -/
def Instr.wellFormed (b : Build) : Instr → Bool
  | .dadc | .dmac | .rca | .ccp | .rd _ => true
  | .wr reg value =>
    decide (value < 2 ^ reg.width b) && !(reg == .CMD && isCommandWord value)

end Sys2Proof
end

