-- ==== Sys2Proof/Decode.lean ====
section
/-!
DEFINITION. Decoding a raw transaction of the register port (spec/30_encoding.md R51 to R58, R63), total and
rejecting by name; then the encoder; then the words of spec/opcode_table.json.
-/

namespace Sys2Proof

/-- Why a raw transaction is none that the port can carry (R51, R53). -/
inductive DecodeReject where
  /-- `we = 0` with `wdata`: it is "present only when `we = 1`" (R51). -/
  | dataOnRead
  /-- `we = 1` without `wdata` (R51). -/
  | missingData
  /-- `wdata` is not as wide as the register addressed (R53). -/
  | wrongWidth
deriving DecidableEq, Repr

/-- A row of the opcode map: the command word matches when `word &&& mask = pattern` (R56). -/
structure OpcodeRow where
  mask : BitVec 8
  pattern : BitVec 8
  command : Command
deriving DecidableEq, Repr

/-- The opcode map (R56): "Decode compares all 8 bits (mask `0xFF`)". -/
def opcodeMap : List OpcodeRow :=
  [ ⟨0xFF#8, 0x01#8, .dadc⟩,
    ⟨0xFF#8, 0x02#8, .dmac⟩,
    ⟨0xFF#8, 0x03#8, .rca⟩,
    ⟨0xFF#8, 0x04#8, .ccp⟩ ]

/-- The command that a command word selects; none for the 252 illegal words (R57, R58). -/
def decodeCommand (word : BitVec 8) : Option Command :=
  (opcodeMap.find? fun row => word &&& row.mask == row.pattern).map (·.command)

/-- A write transaction whose data is as wide as its register: a command when it writes a command word to `CMD`,
a plain write otherwise (R63). -/
def decodeWrite (reg : Reg) (value : Nat) : Instr :=
  if reg = .CMD then
    match decodeCommand (BitVec.ofNat 8 value) with
    | some c => c.instr
    | none => .wr .CMD value
  else .wr reg value

/-- The instruction of a raw transaction, or why there is none (R51, R52, R53, R63). -/
def decode (b : Build) (t : Transaction) : Except DecodeReject Instr :=
  match t.we, t.wdata with
  | false, none => .ok (.rd (Reg.ofIndex t.idx))
  | false, some _ => .error .dataOnRead
  | true, none => .error .missingData
  | true, some d =>
    if d.width = (Reg.ofIndex t.idx).width b then .ok (decodeWrite (Reg.ofIndex t.idx) d.bits.toNat)
    else .error .wrongWidth

/-- A write transaction: `we = 1`, the register's index, and the value at the register's width (R51, R53). -/
def writeTransaction (b : Build) (reg : Reg) (value : Nat) : Transaction :=
  ⟨true, reg.index, some ⟨reg.width b, BitVec.ofNat _ value⟩⟩

/-- The raw transaction of an instruction (R51, R61). -/
def encode (b : Build) : Instr → Transaction
  | .dadc => writeTransaction b .CMD Command.dadc.opcode.toNat
  | .dmac => writeTransaction b .CMD Command.dmac.opcode.toNat
  | .rca => writeTransaction b .CMD Command.rca.opcode.toNat
  | .ccp => writeTransaction b .CMD Command.ccp.opcode.toNat
  | .wr reg value => writeTransaction b reg value
  | .rd reg => ⟨false, reg.index, none⟩

/-- The transaction that a word of spec/opcode_table.json stands for.  The table writes rows of two formats as words:
format `C`, the 8-bit command word written to `CMD` (R54), and format `T`, the 5-bit header of `we` (bit 4) and
`idx` (bits 3 to 0) (R51), whose `wdata`, given no bits by the table, is all zeros.
DESIGN CHOICE (log 10): an 8-bit word that is one of the four command words, or is too large for a header, is read as
a command word; any other is read as a header. -/
def tableTransaction (b : Build) (nbits w : Nat) : Transaction :=
  if (nbits = 8 ∧ isCommandWord w) ∨ 32 ≤ w then
    ⟨true, Reg.CMD.index, some ⟨nbits, BitVec.ofNat nbits w⟩⟩
  else if 16 ≤ w then writeTransaction b (Reg.ofIndex (BitVec.ofNat 4 w)) 0
  else ⟨false, BitVec.ofNat 4 w, none⟩

/-- The instruction the decoder reads from a word of spec/opcode_table.json, at the build of reset. -/
def decodeTableWord (nbits w : Nat) : Option Instr :=
  (decode Config.resetBuild (tableTransaction Config.resetBuild nbits w)).toOption

/-! Every constructor's decoding, shown on transactions written out from the spec's listings `we.idx.wdata`. -/

/-- `1.B.01` (R61). -/
theorem decode_dadc_word (b : Build) : decode b ⟨true, 0xB#4, some ⟨8, 0x01#8⟩⟩ = .ok .dadc := rfl

/-- `1.B.02` (R61). -/
theorem decode_dmac_word (b : Build) : decode b ⟨true, 0xB#4, some ⟨8, 0x02#8⟩⟩ = .ok .dmac := rfl

/-- `1.B.03` (R61). -/
theorem decode_rca_word (b : Build) : decode b ⟨true, 0xB#4, some ⟨8, 0x03#8⟩⟩ = .ok .rca := rfl

/-- `1.B.04` (R61). -/
theorem decode_ccp_word (b : Build) : decode b ⟨true, 0xB#4, some ⟨8, 0x04#8⟩⟩ = .ok .ccp := rfl

/-- `1.0.FFFFFFFF`, which is `WR A, 0xFFFFFFFF` at `W = 32` (R51). -/
theorem decode_wr_word :
    decode Config.build32 ⟨true, 0x0#4, some ⟨32, 0xFFFFFFFF#32⟩⟩ = .ok (.wr .A 0xFFFFFFFF) := rfl

/-- `0.4`, which is `RD CF` (R51). -/
theorem decode_rd_word (b : Build) : decode b ⟨false, 0x4#4, none⟩ = .ok (.rd .CF) := rfl

end Sys2Proof
end

