-- ==== Sys2Proof/Machine/State.lean ====
section
/-!
DEFINITION. The state of the machine (spec/10_state.md), its reset value (R29), and the reasons a step can stop.
-/

namespace Sys2Proof.Machine

/-- The digit memory `DM` (spec/20_memory.md R34): the cells that something has written since power-up, as pairs of a
digit address and a digit, addresses strictly rising (`Memory.wf`).  The addressing unit is the digit; "a model must
not give `DM` a byte view" (R36), so this is no list of bytes (log 3).  An unlisted cell has no value of its own. -/
abbrev Memory (W : Nat) := List (Nat × Digit W)

/-- The canonical form of a memory: addresses strictly rising.  An unlisted address records no value at all, so no
entry can repeat what an unlisted address holds (log 3). -/
abbrev Memory.wf {W : Nat} (m : Memory W) : Prop := m.Pairwise fun x y => x.1 < y.1

/-- One access of the block on its memory port: always one whole digit (R38). -/
inductive Access where
  | read (addr : Nat)
  | write (addr : Nat)
deriving DecidableEq, Repr

/-- Everything that changes as one build of the hardware runs.  The first eleven fields are the registers of the
table of R13 (`CMD` stores nothing, R22), then `DM` (R25); the rest is the host's side and the model's own. -/
structure Sys (b : Build) where
  /-- Digit operand `a`; also the result digit (R13, R14). -/
  A : Digit b.W
  /-- Digit operand `b` (R13, R14). -/
  B : Digit b.W
  /-- Digit operand `c` (R13, R14). -/
  C : Digit b.W
  /-- The digit-valued carry of `DMAC` (R15). -/
  K : Digit b.W
  /-- The boolean carry, the only flag (R16): "a model gives `CF` the type of one bit (a boolean)" (R17). -/
  CF : Bool
  /-- Digit address of `a[0]` (R18). -/
  PA : BitVec b.AW
  /-- `n`, the length of `a` (R18). -/
  NA : BitVec b.AW
  /-- Digit address of `b[0]` (R18). -/
  PB : BitVec b.AW
  /-- `m`, the length of `b`; for `CCP`, the start index (R18). -/
  NB : BitVec b.AW
  /-- The index at which the last `RCA` or `CCP` stopped (R19). -/
  IDX : BitVec b.AW
  /-- The fault code in bits 2:0, bits 7:3 reserved (R21). -/
  STATUS : BitVec 8
  /-- The digit memory (R25, R34). -/
  DM : Memory b.W
  /-- THE MODEL'S OWN (log 2): which power-up this is, the argument of the free value of never-written cells (R137).
  No step changes it, and no statement rests on its value. -/
  powerUp : Nat
  /-- The host's transactions still to come, in its program order (R8, R60; log 4). -/
  pending : List (HostLine b.W)
  /-- What the host's reads have returned, oldest first (R108, R111; log 5). -/
  returned : List PortData
  /-- THE MODEL'S OWN (log 6): the block's accesses to `DM`, oldest first (R43, R49).  Nothing reads it. -/
  accesses : List Access
deriving DecidableEq, Repr

/-- The machine: a build, which no step changes (R5; log 1), and everything of it that changes. -/
structure State where
  build : Build
  sys : Sys build
deriving DecidableEq, Repr

/-- A step never ends in a fault of the machine, so this type is empty.  The four faults of the spec
(spec/60_exceptions.md R117) are taken by the block as R123 says, which is a NEXT state; "No other synchronous
exception exists" (R117). -/
inductive Fault
deriving DecidableEq, Repr

/-- Why a step has no meaning.  Each is a stop where the spec says the host cannot present the line or the model
refuses it, so each is safe. -/
inductive Refusal where
  /-- An instruction whose arm of `exec` gives it no meaning; raised by `exec` alone, and by no arm now.  Safe. -/
  | notModelled (mnemonic : String)
  /-- A `WR` whose value is wider than its register: it "cannot be presented" (R53).  Raised by `execWr` on an
  instruction that is not well formed; decoding never gives one.  Safe. -/
  | valueTooWide
  /-- A raw transaction that the register port cannot carry (R51, R53).  Raised by `step`.  Safe. -/
  | badTransaction (why : DecodeReject)
  /-- `MW` or `MR` at an address `>= MEMDIGITS`: it "names no cell; a model refuses such a line" (R110,
  spec/93_implementation_defined.md U12).  Raised by `step`.  Safe. -/
  | noSuchCell
deriving DecidableEq, Repr

/-- A build right after power-up and reset: every register 0 (R29), nothing written to `DM` yet (R137), no
transaction issued, returned or accessed yet. -/
def State.resetOf (b : Build) : State where
  build := b
  sys :=
    { A := 0, B := 0, C := 0, K := 0, CF := false, PA := 0, NA := 0, PB := 0, NB := 0, IDX := 0, STATUS := 0,
      DM := [], powerUp := 0, pending := [], returned := [], accesses := [] }

/-- The machine right after reset (R29, R136), at the build of log 1. -/
def State.reset : State := State.resetOf Config.resetBuild

end Sys2Proof.Machine
end

