-- ==== Sys2Proof/Machine/Ops.lean ====
section
/-!
DEFINITION. The named operations over memory and registers, taking a fault (spec/60_exceptions.md R123), and reset,
the only way out of one (R126).
-/

namespace Sys2Proof.Machine

/-! ### The digit memory -/

/-- The digit recorded for a cell, if something has written it. -/
def findCell {W : Nat} : Memory W → Nat → Option (Digit W)
  | [], _ => none
  | (key, v) :: rest, addr => if key = addr then some v else findCell rest addr

/-- Records a digit for a cell, keeping the addresses rising. -/
def storeCell {W : Nat} : Memory W → Nat → Digit W → Memory W
  | [], addr, v => [(addr, v)]
  | (key, x) :: rest, addr, v =>
    if addr < key then (addr, v) :: (key, x) :: rest
    else if addr = key then (addr, v) :: rest
    else (key, x) :: storeCell rest addr v

variable {b : Build}

/-- `DM[addr]` (R34): what was last written there (R44), or, where nothing has been, the unspecified digit of this
power-up (R137; log 2). -/
def Sys.cell (s : Sys b) (addr : Nat) : Digit b.W :=
  (findCell s.DM addr).getD (Config.powerUpDigit b.W s.powerUp addr)

/-- `MemRead(addr, 1)` (R10, R38): the digit, and the access on the memory port. -/
def memRead (addr : Nat) (s : Sys b) : Digit b.W × Sys b :=
  (s.cell addr, { s with accesses := s.accesses ++ [.read addr] })

/-- `MemWrite(addr, 1, v)` (R10, R38, R39). -/
def memWrite (addr : Nat) (v : Digit b.W) (s : Sys b) : Sys b :=
  { s with DM := storeCell s.DM addr v, accesses := s.accesses ++ [.write addr] }

/-! ### Faults -/

/-- The four faults (R117). -/
inductive FaultKind where
  | lengthFault | rangeFault | aliasFault | illegalFault
deriving DecidableEq, Repr

/-- The code of a fault in `STATUS.FAULT` (R117). -/
def faultCode : FaultKind → BitVec 3
  | .lengthFault => 1#3
  | .rangeFault => 2#3
  | .aliasFault => 3#3
  | .illegalFault => 4#3

/-- `STATUS.FAULT`, bits 2:0 (R21). -/
def Sys.fault (s : Sys b) : BitVec 3 := s.STATUS.extractLsb' 0 3

/-- "The block is halted exactly when `STATUS.FAULT != 0`" (R125). -/
def Sys.halted (s : Sys b) : Bool := s.fault != 0#3

/-- The output signal `fault_o = bit(STATUS.FAULT != 0)` (R28, R130): a function of state, not state. -/
def Sys.faultO (s : Sys b) : BitVec 1 := BitVec.ofBool (s.fault != 0#3)

/-- `raise F()`, taking a fault (R123): `STATUS.FAULT` gets the code and nothing else changes. -/
def raise (f : FaultKind) (s : Sys b) : Sys b :=
  { s with STATUS := s.STATUS.extractLsb' 3 5 ++ faultCode f }

/-- The registers at their reset values, `DM` not touched (R29, R112, R136).  It is the only way out of the halted
state (R126). -/
def resetRegisters (s : Sys b) : Sys b :=
  { s with
    A := 0, B := 0, C := 0, K := 0, CF := false, PA := 0, NA := 0, PB := 0, NB := 0, IDX := 0, STATUS := 0 }

/-- A write to `CMD` that selects `command`: ignored while the block is halted (R109, R125). -/
def issue (command : Sys b → Sys b) (s : Sys b) : Sys b :=
  if s.halted then s else command s

/-! ### Registers by name -/

/-- The value an `RD` returns, at the register's width (R53, R108): `STATUS` reads as `{00000, FAULT}`, `CMD` and the
reserved indices read 0 (R22, R23, R113). -/
def readReg (s : Sys b) : (r : Reg) → BitVec (r.width b)
  | .A => s.A
  | .B => s.B
  | .C => s.C
  | .K => s.K
  | .CF => BitVec.ofBool s.CF
  | .PA => s.PA
  | .NA => s.NA
  | .PB => s.PB
  | .NB => s.NB
  | .IDX => s.IDX
  | .STATUS => (0#5 ++ s.fault : BitVec 8)
  | .CMD => 0#8
  | .reserved _ => 0#8

/-- `x[idx(reg)] <- v` for the registers a host write stores to (R107); `IDX`, `STATUS` and the reserved indices
ignore it (R113), and `CMD` stores nothing (R22). -/
def writeReg (r : Reg) (v : Nat) (s : Sys b) : Sys b :=
  match r with
  | .A => { s with A := BitVec.ofNat b.W v }
  | .B => { s with B := BitVec.ofNat b.W v }
  | .C => { s with C := BitVec.ofNat b.W v }
  | .K => { s with K := BitVec.ofNat b.W v }
  | .CF => { s with CF := v == 1 }
  | .PA => { s with PA := BitVec.ofNat b.AW v }
  | .NA => { s with NA := BitVec.ofNat b.AW v }
  | .PB => { s with PB := BitVec.ofNat b.AW v }
  | .NB => { s with NB := BitVec.ofNat b.AW v }
  | .IDX | .STATUS | .CMD | .reserved _ => s

/-- A read hands a value back to the host and changes no state of the block (R108, R111). -/
def giveBack (d : PortData) (s : Sys b) : Sys b := { s with returned := s.returned ++ [d] }

end Sys2Proof.Machine
end

