-- ==== Sys2Proof/Machine/DigitCommands.lean ====
section
/-!
DEFINITION. The two digit commands, `DADC` (spec/40_digit_add_with_carry.md) and `DMAC`
(spec/41_digit_multiply_add_with_carry.md).
-/

namespace Sys2Proof.Machine

variable {b : Build}

/-- `DADC` on a block that is not halted (R67): `A` and `CF` are read before either is written. -/
def dadcCommand (s : Sys b) : Sys b :=
  { s with A := (dadc s.A s.B s.CF).1, CF := (dadc s.A s.B s.CF).2 }

/-- `DMAC` on a block that is not halted (R76): all four registers are read before `A` or `K` is written. -/
def dmacCommand (s : Sys b) : Sys b :=
  { s with A := (dmac s.A s.B s.C s.K).1, K := (dmac s.A s.B s.C s.K).2 }

/-- `DADC` (R65, R67, R71). -/
def execDadc (s : State) : Host.Outcome State Fault Refusal :=
  .next ⟨s.build, issue dadcCommand s.sys⟩

/-- `DMAC` (R74, R76, R80). -/
def execDmac (s : State) : Host.Outcome State Fault Refusal :=
  .next ⟨s.build, issue dmacCommand s.sys⟩

end Sys2Proof.Machine
end

