-- ==== Sys2Proof/Machine/Operands.lean ====
section
/-!
DEFINITION. The operand form of the sequence commands: a digit sequence named by a base address and a length
(spec/20_memory.md R35, R41), what it stands for (spec/00_scope.md R12), and the conditions the commands test on it
(spec/60_exceptions.md R118 to R120).
-/

namespace Sys2Proof.Machine

/-- The address of digit `i` of a sequence: base plus index, on unbounded integers (R35, R41). -/
def digitAddr {AW : Nat} (base : BitVec AW) (i : Nat) : Nat := base.toNat + i

variable {b : Build}

/-- The digits of the sequence of `len` cells from `base`, least significant first (R35). -/
def Sys.seq (s : Sys b) (base : BitVec b.AW) (len : Nat) : List (Digit b.W) :=
  (List.range len).map fun i => s.cell (digitAddr base i)

/-- `value(d)`, the sum of `d[i] * 2^(W*i)` (R12). -/
def value {W : Nat} : List (Digit W) → Nat
  | [] => 0
  | d :: rest => d.toNat + 2 ^ W * value rest

/-- `NB > NA`, compared as unsigned numbers (R118). -/
def lengthFails (s : Sys b) : Bool := decide (s.NA.toNat < s.NB.toNat)

/-- A non-empty sequence that reaches past the end of `DM` (R119); an empty one has no cells (R86). -/
def pastEnd (base len : BitVec b.AW) : Bool :=
  decide (0 < len.toNat) && decide (b.memDigits < base.toNat + len.toNat)

/-- Two non-empty sequences that share a cell (R120). -/
def shareCell (pa na pb nb : BitVec b.AW) : Bool :=
  decide (0 < na.toNat) && decide (0 < nb.toNat) &&
    decide (pa.toNat < pb.toNat + nb.toNat) && decide (pb.toNat < pa.toNat + na.toNat)

/-- The fault an `RCA` raises, if any, in the order `LENGTH`, `RANGE`, `ALIAS` (R85, R86, R122). -/
def rcaFault (s : Sys b) : Option FaultKind :=
  if lengthFails s then some .lengthFault
  else if pastEnd s.PA s.NA || pastEnd s.PB s.NB then some .rangeFault
  else if shareCell s.PA s.NA s.PB s.NB then some .aliasFault
  else none

/-- The fault a `CCP` raises, if any, in the order `LENGTH`, `RANGE` (R99, R122). -/
def ccpFault (s : Sys b) : Option FaultKind :=
  if lengthFails s then some .lengthFault
  else if pastEnd s.PA s.NA then some .rangeFault
  else none

/-- A command that faults only takes the fault (R124); otherwise its body runs. -/
def checked (fault : Option FaultKind) (body : Sys b → Sys b) (s : Sys b) : Sys b :=
  match fault with
  | some f => raise f s
  | none => body s

end Sys2Proof.Machine
end

