-- ==== Sys2Proof/Machine/SequenceCommands.lean ====
section
/-!
DEFINITION. The two sequence commands, `RCA` (spec/42_ripple_carry_adder.md) and `CCP`
(spec/43_carry_chain_propagator.md), which share the upper carry loop (R106).
-/

namespace Sys2Proof.Machine

variable {b : Build}

/-- Prefix position `i`: read `a[i]`, read `b[i]`, write `a[i]` (R43, R89); the carry-out with the state after. -/
def prefixPosition (pa pb : BitVec b.AW) (i : Nat) (carry : Bool) (s : Sys b) : Bool × Sys b :=
  let av := memRead (digitAddr pa i) s
  let bv := memRead (digitAddr pb i) av.2
  let sum := dadc av.1 bv.1 carry
  (sum.2, memWrite (digitAddr pa i) sum.1 bv.2)

/-- Suffix position `i`: read `a[i]`, write `a[i]` (R43), adding 0 and the carry (R90, R100). -/
def suffixPosition (pa : BitVec b.AW) (i : Nat) (carry : Bool) (s : Sys b) : Bool × Sys b :=
  let av := memRead (digitAddr pa i) s
  let sum := dadc av.1 0 carry
  (sum.2, memWrite (digitAddr pa i) sum.1 av.2)

/-- The prefix loop over the `count` positions from `i` up (R87, R89); it never stops early. -/
def prefixLoop (pa pb : BitVec b.AW) : (count i : Nat) → (carry : Bool) → Sys b → Bool × Sys b
  | 0, _, carry, s => (carry, s)
  | count + 1, i, carry, s =>
    let p := prefixPosition pa pb i carry s
    prefixLoop pa pb count (i + 1) p.1 p.2

/-- How the upper carry loop ended: the index it stopped at, the carry that remains, the state. -/
structure LoopEnd (b : Build) where
  index : Nat
  carry : Bool
  state : Sys b

/-- `while i < n and carry = 1` over the `count = n - i` positions from `i` up (R90, R100): the carry is tested before
each position, the first included (R101). -/
def suffixLoop (pa : BitVec b.AW) : (count i : Nat) → (carry : Bool) → Sys b → LoopEnd b
  | 0, i, carry, s => ⟨i, carry, s⟩
  | count + 1, i, carry, s =>
    if carry then
      let p := suffixPosition pa i carry s
      suffixLoop pa count (i + 1) p.1 p.2
    else ⟨i, carry, s⟩

/-- The last two lines of both commands: `CF <- carry; IDX <- i` (R91, R103). -/
def finish (e : LoopEnd b) : Sys b :=
  { e.state with CF := e.carry, IDX := BitVec.ofNat b.AW e.index }

/-- `RCA` past its checks (R87): the carry starts false whatever `CF` holds (R88). -/
def rcaBody (s : Sys b) : Sys b :=
  let p := prefixLoop s.PA s.PB s.NB.toNat 0 false s
  finish (suffixLoop s.PA (s.NA.toNat - s.NB.toNat) s.NB.toNat p.1 p.2)

/-- `CCP` past its checks (R100). -/
def ccpBody (s : Sys b) : Sys b :=
  finish (suffixLoop s.PA (s.NA.toNat - s.NB.toNat) s.NB.toNat s.CF s)

/-- `RCA` on a block that is not halted: every check comes before any access to `DM` (R85, R86, R124). -/
def rcaCommand (s : Sys b) : Sys b := checked (rcaFault s) rcaBody s

/-- `CCP` on a block that is not halted (R99, R100, R124). -/
def ccpCommand (s : Sys b) : Sys b := checked (ccpFault s) ccpBody s

/-- `RCA` (R83, R87, R95). -/
def execRca (s : State) : Host.Outcome State Fault Refusal :=
  .next ⟨s.build, issue rcaCommand s.sys⟩

/-- `CCP` (R97, R100, R105). -/
def execCcp (s : State) : Host.Outcome State Fault Refusal :=
  .next ⟨s.build, issue ccpCommand s.sys⟩

end Sys2Proof.Machine
end

