-- ==== Sys2Proof/Machine/PortCommands.lean ====
section
/-!
DEFINITION. The two register transactions of the port, `WR` and `RD` (spec/44_host_transactions.md R107 to R109, R113).
-/

namespace Sys2Proof.Machine

variable {b : Build}

/-- A write of `word` to `CMD` on a block that is not halted (R109): the command it selects runs, and any of the 252
other words raises `ILLEGAL` (R57, R58, R121). -/
def commandWord (word : BitVec 8) (s : Sys b) : Sys b :=
  match decodeCommand word with
  | some .dadc => dadcCommand s
  | some .dmac => dmacCommand s
  | some .rca => rcaCommand s
  | some .ccp => ccpCommand s
  | none => raise .illegalFault s

/-- The effect of a register write that the port can carry: a write to `CMD` issues a command (R109), any other is a
plain register write (R107, R113). -/
def portWrite (r : Reg) (v : Nat) (s : Sys b) : Sys b :=
  match r with
  | .CMD => issue (commandWord (BitVec.ofNat 8 v)) s
  | r => writeReg r v s

/-- `WR reg, v` (R107, R109, R113): the same whether or not the block is halted (R114), but for `CMD`.  A value wider
than the register "cannot be presented" (R53) and is refused. -/
def execWr (reg : Reg) (v : Nat) (s : State) : Host.Outcome State Fault Refusal :=
  if v < 2 ^ reg.width s.build then .next ⟨s.build, portWrite reg v s.sys⟩
  else .refused .valueTooWide

/-- `RD reg` (R108, R113): the register's value, at its width, goes back to the host; no other state changes. -/
def execRd (reg : Reg) (s : State) : Host.Outcome State Fault Refusal :=
  .next ⟨s.build, giveBack ⟨reg.width s.build, readReg s.sys reg⟩ s.sys⟩

end Sys2Proof.Machine
end

