-- ==== Sys2Proof/Machine/Dispatch.lean ====
section
/-!
DEFINITION. The dispatch: one arm per row of spec/opcode_table.json, each one call of that instruction's meaning.
-/

namespace Sys2Proof.Machine

def exec (i : Instr) (s : State) : Host.Outcome State Fault Refusal :=
  match i with
  | .dadc => Sys2Proof.Machine.execDadc s
  | .dmac => Sys2Proof.Machine.execDmac s
  | .rca => Sys2Proof.Machine.execRca s
  | .ccp => Sys2Proof.Machine.execCcp s
  | .wr reg value => Sys2Proof.Machine.execWr reg value s
  | .rd reg => Sys2Proof.Machine.execRd reg s

end Sys2Proof.Machine
end

