-- ==== Sys2Proof/Machine/HostLines.lean ====
section
/-!
DEFINITION. The host's lines that have no encoding on the register port (spec/30_encoding.md R62): `MW`, `MR` and
`RESET` (spec/44_host_transactions.md R110 to R112); and taking the host's next line (spec/00_scope.md R8).
-/

namespace Sys2Proof.Machine

variable {b : Build}

/-- `MW addr, v` (R110): the host writes memory it owns; no register changes, and the block's memory port makes no
access.  At an address that names no cell the line is refused (U12). -/
def hostWrite (addr : Nat) (v : Digit b.W) (s : Sys b) : Host.Outcome State Fault Refusal :=
  if addr < b.memDigits then .next ⟨b, { s with DM := storeCell s.DM addr v }⟩
  else .refused .noSuchCell

/-- `MR addr` (R111): the digit goes back to the host, and nothing changes. -/
def hostRead (addr : Nat) (s : Sys b) : Host.Outcome State Fault Refusal :=
  if addr < b.memDigits then .next ⟨b, giveBack ⟨b.W, s.cell addr⟩ s⟩
  else .refused .noSuchCell

/-- `RESET` (R112, R136). -/
def hostReset (s : Sys b) : Host.Outcome State Fault Refusal := .next ⟨b, resetRegisters s⟩

/-- The state once the host has issued its next line: only the lines after it are still to come. -/
def takeLine (rest : List (HostLine b.W)) (s : Sys b) : Sys b := { s with pending := rest }

/-- The state in which `t` is the host's next transaction. -/
def giveTransaction (t : Transaction) (s : Sys b) : Sys b := { s with pending := .port t :: s.pending }

end Sys2Proof.Machine
end

