-- ==== Sys2Proof/Machine/Step.lean ====
section
/-!
DEFINITION. One step is one transaction of the host, whole (spec/00_scope.md R8, spec/20_memory.md R44, R45).
-/

namespace Sys2Proof.Machine

/-- What one line of the host does: a port transaction is decoded and executed; the three others are the host's own. -/
def runLine {b : Build} (line : HostLine b.W) (s : Sys b) : Host.Outcome State Fault Refusal :=
  match line with
  | .port t =>
    match decode b t with
    | .ok i => exec i ⟨b, s⟩
    | .error why => .refused (.badTransaction why)
  | .mw addr v => hostWrite addr v s
  | .mr addr => hostRead addr s
  | .reset => hostReset s

/-- The host issues its next line and the block carries it out.  With no line to come nothing happens: "The block does
not act except inside a command" (spec/60_exceptions.md R131; log 4). -/
def step (s : State) : Host.Outcome State Fault Refusal :=
  match s.sys.pending with
  | [] => .next s
  | line :: rest => runLine line (takeLine rest s.sys)

/-- The state in which the host's next transaction is the one the table's word stands for (log 10). -/
def State.withFetchWord (s : State) (nbits w : Nat) : State :=
  ⟨s.build, giveTransaction (tableTransaction s.build nbits w) s.sys⟩

end Sys2Proof.Machine
end

