-- ==== Sys2Proof/Safety.lean ====
section
/-!
DEFINITION. The terms claims use: the host's duties under which a command runs (spec/44_host_transactions.md R116), the
lines a host program may hold, a good end of a run (spec/60_exceptions.md R125), and the model's invariant.
-/

namespace Sys2Proof.Machine

variable {b : Build}

/-- A sequence lies inside `DM`; an empty one has no cells (R86, R119). -/
abbrev InMemory (base len : BitVec b.AW) : Prop :=
  0 < len.toNat → base.toNat + len.toNat ≤ b.memDigits

/-- Two sequences share no cell; an empty one has no cells (R86, R120). -/
abbrev Apart (pa na pb nb : BitVec b.AW) : Prop :=
  na.toNat = 0 ∨ nb.toNat = 0 ∨ pa.toNat + na.toNat ≤ pb.toNat ∨ pb.toNat + nb.toNat ≤ pa.toNat

/-- What the host owes an `RCA` (R116), on a block that is not halted. -/
structure RcaReady (s : Sys b) : Prop where
  running : s.halted = false
  length : s.NB.toNat ≤ s.NA.toNat
  a_in : InMemory s.PA s.NA
  b_in : InMemory s.PB s.NB
  apart : Apart s.PA s.NA s.PB s.NB

/-- What the host owes a `CCP` (R116), on a block that is not halted. -/
structure CcpReady (s : Sys b) : Prop where
  running : s.halted = false
  length : s.NB.toNat ≤ s.NA.toNat
  a_in : InMemory s.PA s.NA

/-- The carry into position `i` of a digit-by-digit addition of `x` and `y` threaded from index 0 up (R32, R93). -/
def chainCarry {W : Nat} (x y : Nat → Digit W) (carryIn : Bool) : Nat → Bool
  | 0 => carryIn
  | i + 1 => (dadc (x i) (y i) (chainCarry x y carryIn i)).2

/-- The result digit at position `i` of that addition (R93). -/
def chainDigit {W : Nat} (x y : Nat → Digit W) (carryIn : Bool) (i : Nat) : Digit W :=
  (dadc (x i) (y i) (chainCarry x y carryIn i)).1

/-- The accesses of prefix position `i`, in order (R43). -/
def prefixAccesses (pa pb : BitVec b.AW) (i : Nat) : List Access :=
  [.read (digitAddr pa i), .read (digitAddr pb i), .write (digitAddr pa i)]

/-- The accesses of suffix position `i`, in order (R43). -/
def suffixAccesses (pa : BitVec b.AW) (i : Nat) : List Access :=
  [.read (digitAddr pa i), .write (digitAddr pa i)]

/-- A line that a host program may hold (R51, R53, R110, U12). -/
def lineOk (b : Build) : HostLine b.W → Bool
  | .port t => (decode b t).isOk
  | .mw addr _ => decide (addr < b.memDigits)
  | .mr addr => decide (addr < b.memDigits)
  | .reset => true

/-- Is the line the host's `RESET`? -/
def isReset {W : Nat} : HostLine W → Bool
  | .reset => true
  | .port _ | .mw _ _ | .mr _ => false

/-- "A halted state is never the good end of a run" (R125): the host's lines are done and no fault is recorded. -/
abbrev GoodEnd (s : State) : Prop := s.sys.pending = [] ∧ s.sys.fault = 0#3

/-- The model's invariant: memory is in its canonical form and lists only cells that exist (R34), and `STATUS` holds a
code that is produced, with the reserved bits 0 (R21, R117). -/
structure Inv (s : State) : Prop where
  canonical : s.sys.DM.wf
  cells : ∀ c ∈ s.sys.DM, c.1 < s.build.memDigits
  status : s.sys.STATUS.toNat ≤ 4

end Sys2Proof.Machine
end

