-- ==== Sys2Proof/Certificates/Slice0/Obligations.lean ====
section
/-!
DEFINITION. The statements for the provers, in the order of OBLIGATIONS.json.  `∀ (b : Build) (s : Sys b)` ranges over
every state of the machine, for every digit width, address width and memory size (spec/00_scope.md R5, R6, R7).
A frame is written `t = { s with X := t.X, … }`: every field of the state but those named is unchanged, the registers,
the flag, `STATUS`, the memory and its record of accesses among them.
-/

open Sys2Proof Sys2Proof.Machine

/-! ### Encoding -/

/-- Decoding the encoding of a well-formed instruction gives it back, with every operand at every value (R51 to R53,
R56, R61). -/
def Obligations.DecodeOfEncode : Prop :=
  ∀ (b : Build) (i : Instr), i.wellFormed b = true → decode b (encode b i) = .ok i

/-- A transaction that decodes has one meaning, which is well formed, and encodes to that transaction (R51, R57). -/
def Obligations.EncodeOfDecode : Prop :=
  ∀ (b : Build) (t : Transaction) (i : Instr),
    decode b t = .ok i → encode b i = t ∧ i.wellFormed b = true

/-- Four opcodes, all 8 bits compared (R56). -/
def Obligations.FourOpcodesAreDefined : Prop :=
  ∀ v : BitVec 8, decodeCommand v =
    if v = 0x01#8 then some .dadc
    else if v = 0x02#8 then some .dmac
    else if v = 0x03#8 then some .rca
    else if v = 0x04#8 then some .ccp
    else none

/-- Words written out from the spec's listings `we.idx.wdata` decode to what the listings say (R51, R52, R61). -/
def Obligations.ListedTransactionsDecode : Prop :=
  decode Config.build32 ⟨true, 0xB#4, some ⟨8, 0x01#8⟩⟩ = .ok .dadc ∧
  decode Config.build32 ⟨true, 0xB#4, some ⟨8, 0x02#8⟩⟩ = .ok .dmac ∧
  decode Config.build32 ⟨true, 0xB#4, some ⟨8, 0x03#8⟩⟩ = .ok .rca ∧
  decode Config.build32 ⟨true, 0xB#4, some ⟨8, 0x04#8⟩⟩ = .ok .ccp ∧
  decode Config.build32 ⟨true, 0xB#4, some ⟨8, 0x05#8⟩⟩ = .ok (.wr .CMD 0x05) ∧
  decode Config.build32 ⟨true, 0x0#4, some ⟨32, 0xFFFFFFFF#32⟩⟩ = .ok (.wr .A 0xFFFFFFFF) ∧
  decode Config.build32 ⟨true, 0x4#4, some ⟨1, 1#1⟩⟩ = .ok (.wr .CF 1) ∧
  decode Config.build32 ⟨true, 0x8#4, some ⟨32, 0x00000003#32⟩⟩ = .ok (.wr .NB 3) ∧
  decode Config.build32 ⟨true, 0xC#4, some ⟨8, 0x55#8⟩⟩ = .ok (.wr (.reserved 0) 0x55) ∧
  decode Config.build64 ⟨true, 0x3#4, some ⟨64, 0x8877665544332211#64⟩⟩ = .ok (.wr .K 0x8877665544332211) ∧
  decode Config.build32 ⟨false, 0x0#4, none⟩ = .ok (.rd .A) ∧
  decode Config.build32 ⟨false, 0x4#4, none⟩ = .ok (.rd .CF) ∧
  decode Config.build32 ⟨false, 0xA#4, none⟩ = .ok (.rd .STATUS)

/-- The four command mnemonics stand for writes of their words to `CMD`: the same transaction, the same effect (R61). -/
def Obligations.CommandMnemonicsAreCmdWrites : Prop :=
  ∀ b : Build,
    (encode b .dadc = ⟨true, 0xB#4, some ⟨8, 0x01#8⟩⟩ ∧ encode b .dadc = encode b (.wr .CMD 0x01)) ∧
    (encode b .dmac = ⟨true, 0xB#4, some ⟨8, 0x02#8⟩⟩ ∧ encode b .dmac = encode b (.wr .CMD 0x02)) ∧
    (encode b .rca = ⟨true, 0xB#4, some ⟨8, 0x03#8⟩⟩ ∧ encode b .rca = encode b (.wr .CMD 0x03)) ∧
    (encode b .ccp = ⟨true, 0xB#4, some ⟨8, 0x04#8⟩⟩ ∧ encode b .ccp = encode b (.wr .CMD 0x04)) ∧
    ∀ s : Sys b,
      exec .dadc ⟨b, s⟩ = exec (.wr .CMD 0x01) ⟨b, s⟩ ∧ exec .dmac ⟨b, s⟩ = exec (.wr .CMD 0x02) ⟨b, s⟩ ∧
      exec .rca ⟨b, s⟩ = exec (.wr .CMD 0x03) ⟨b, s⟩ ∧ exec .ccp ⟨b, s⟩ = exec (.wr .CMD 0x04) ⟨b, s⟩

/-! ### The step -/

/-- When the host's next line is a transaction that decodes to `i`, the step is `exec i` of the state from which that
line has been taken; nothing else stands around `exec` (R8, R63). -/
def Obligations.StepRunsDecodedInstruction : Prop :=
  ∀ (b : Build) (s : Sys b) (t : Transaction) (rest : List (HostLine b.W)) (i : Instr),
    s.pending = .port t :: rest → decode b t = .ok i →
    step ⟨b, s⟩ = exec i ⟨b, { s with pending := rest }⟩

/-- A transaction the port cannot carry is refused under the decoder's reason (R51, R53). -/
def Obligations.StepRefusesUndecodableTransaction : Prop :=
  ∀ (b : Build) (s : Sys b) (t : Transaction) (rest : List (HostLine b.W)) (why : DecodeReject),
    s.pending = .port t :: rest → decode b t = .error why →
    step ⟨b, s⟩ = .refused (.badTransaction why)

/-- With no line of the host to come, nothing happens: the block does not act except inside a command (R131).  That the
step then answers a next state is the model's choice (log 4). -/
def Obligations.IdleBlockDoesNothing : Prop :=
  ∀ (b : Build) (s : Sys b), s.pending = [] → step ⟨b, s⟩ = .next ⟨b, s⟩

/-- `withFetchWord` makes the word's transaction the very next one (the model's reading of the table's words, log 10). -/
def Obligations.StepRunsFetchWord : Prop :=
  ∀ (s : State) (nbits w : Nat) (i : Instr),
    decode s.build (tableTransaction s.build nbits w) = .ok i → step (s.withFetchWord nbits w) = exec i s

/-! ### Arithmetic primitives and `DADC` -/

/-- `addc_W` and `mulwide_W` lose nothing (R11). -/
def Obligations.ArithmeticPrimitivesAreExact : Prop :=
  ∀ (W : Nat) (x y : Digit W),
    (addc x y).1.toNat = (x.toNat + y.toNat) % 2 ^ W ∧
    ((addc x y).2 = true ↔ 2 ^ W ≤ x.toNat + y.toNat) ∧
    (addc x y).1.toNat + (addc x y).2.toNat * 2 ^ W = x.toNat + y.toNat ∧
    (mulwide x y).1.toNat * 2 ^ W + (mulwide x y).2.toNat = x.toNat * y.toNat ∧
    x.toNat * y.toNat < 2 ^ (2 * W)

/-- `DADC` on a block that is not halted completes, and its result is exact over the integers; the true sum is at most
`2^(W+1) - 1`, so one bit of carry is enough (R66). -/
def Obligations.DadcAddsExactly : Prop :=
  ∀ (b : Build) (s : Sys b), s.halted = false →
    ∃ t : Sys b, exec .dadc ⟨b, s⟩ = .next ⟨b, t⟩ ∧
      t.A.toNat + t.CF.toNat * 2 ^ b.W = s.A.toNat + s.B.toNat + s.CF.toNat ∧
      t.A.toNat = (s.A.toNat + s.B.toNat + s.CF.toNat) % 2 ^ b.W ∧
      (t.CF = true ↔ 2 ^ b.W ≤ s.A.toNat + s.B.toNat + s.CF.toNat) ∧
      s.A.toNat + s.B.toNat + s.CF.toNat ≤ 2 ^ (b.W + 1) - 1

/-- `DADC` writes `A` and `CF` and nothing else, raises no fault, and does nothing while the block is halted (R71). -/
def Obligations.DadcWritesOnlyAAndCF : Prop :=
  ∀ (b : Build) (s : Sys b),
    ∃ t : Sys b, exec .dadc ⟨b, s⟩ = .next ⟨b, t⟩ ∧
      t = { s with A := t.A, CF := t.CF } ∧ (∀ addr, t.cell addr = s.cell addr) ∧
      (s.halted = true → t = s)

/-- The two-step form and the widened form of the digit add agree on all inputs; the widened sum does not overflow and
its high half is 0 or 1 (R68).  The last clause, that the high half equals bit `W`, is the spec's own inference: "That bit
`W` alone carries the high half is [derived: from rule R66]" (R68), "derived (rule R68), not stated"
(spec/91_not_in_source.md). -/
def Obligations.DadcFormsAgree : Prop :=
  ∀ (W : Nat), 1 ≤ W → ∀ (x y : Digit W) (c : Bool),
    dadc x y c = dadcWide x y c ∧
    (dadcSum x y c).toNat = x.toNat + y.toNat + c.toNat ∧
    (dadcSum x y c).toNat ≤ 2 ^ (W + 1) - 1 ∧
    ((dadcSum x y c).extractLsb' W W).toNat = (dadcWide x y c).2.toNat

/-- The internal assertion: when the first addition overflows its sum is below `MAX`, so adding the carry does not
overflow (R69); at most one of the two additions overflows, and the carry-out is their disjunction (R70). -/
def Obligations.DadcFirstOverflowLeavesRoom : Prop :=
  ∀ (W : Nat), 1 ≤ W → ∀ (x y : Digit W) (c : Bool),
    ((addc x y).2 = true →
      (addc x y).1.toNat ≤ 2 ^ W - 2 ∧ (addc x y).1.toNat + c.toNat ≤ 2 ^ W - 1 ∧
      (addc (addc x y).1 (carryDigit W c)).2 = false) ∧
    (dadc x y c).2 = ((addc x y).2 || (addc (addc x y).1 (carryDigit W c)).2)

/-- The corner cases of the digit add, at every width (the table of R72). -/
def Obligations.DadcCornerCases : Prop :=
  ∀ (W : Nat), 1 ≤ W →
    dadc (0 : Digit W) 0 false = (0, false) ∧
    dadc (0 : Digit W) 0 true = (1, false) ∧
    dadc (maxDigit W) 0 true = (0, true) ∧
    dadc (maxDigit W) 1 false = (0, true) ∧
    dadc (maxDigit W) (maxDigit W) true = (maxDigit W, true) ∧
    dadc (maxDigit W) (maxDigit W) false = (maxDigit W - 1, true) ∧
    ∀ (x y : Digit W) (c : Bool),
      dadc x (maxDigit W - x) false = (maxDigit W, false) ∧
      dadc x (maxDigit W - x) true = (0, true) ∧
      dadc x 0 false = (x, false) ∧
      dadc x y c = dadc y x c

/-! ### `DMAC` -/

/-- `DMAC` on a block that is not halted completes, and its result is exact over the integers (R75). -/
def Obligations.DmacMultiplyAddsExactly : Prop :=
  ∀ (b : Build) (s : Sys b), s.halted = false →
    ∃ t : Sys b, exec .dmac ⟨b, s⟩ = .next ⟨b, t⟩ ∧
      t.A.toNat + t.K.toNat * 2 ^ b.W = s.A.toNat + s.B.toNat * s.C.toNat + s.K.toNat ∧
      t.A.toNat = (s.A.toNat + s.B.toNat * s.C.toNat + s.K.toNat) % 2 ^ b.W ∧
      t.K.toNat = (s.A.toNat + s.B.toNat * s.C.toNat + s.K.toNat) / 2 ^ b.W

/-- `DMAC` writes `A` and `K` and nothing else, no flag and no fault, and does nothing while the block is halted (R80). -/
def Obligations.DmacWritesOnlyAAndK : Prop :=
  ∀ (b : Build) (s : Sys b),
    ∃ t : Sys b, exec .dmac ⟨b, s⟩ = .next ⟨b, t⟩ ∧
      t = { s with A := t.A, K := t.K } ∧ (∀ addr, t.cell addr = s.cell addr) ∧
      (s.halted = true → t = s)

/-- The `2W`-bit accumulator never overflows, the carry-out is at most `MAX`, and both bounds are reached (R77). -/
def Obligations.DmacAccumulatorNeverOverflows : Prop :=
  ∀ (W : Nat) (a b c k : Digit W),
    (dmacSum a b c k).toNat = a.toNat + b.toNat * c.toNat + k.toNat ∧
    a.toNat + b.toNat * c.toNat + k.toNat ≤ 2 ^ (2 * W) - 1 ∧
    (dmac a b c k).2.toNat ≤ 2 ^ W - 1 ∧
    (dmacSum (maxDigit W) (maxDigit W) (maxDigit W) (maxDigit W)).toNat = 2 ^ (2 * W) - 1 ∧
    dmac (maxDigit W) (maxDigit W) (maxDigit W) (maxDigit W) = (maxDigit W, maxDigit W)

/-- The two-limb form computes the same digits, and its high digit does not overflow (R79). -/
def Obligations.DmacTwoLimbFormAgrees : Prop :=
  ∀ (W : Nat), 1 ≤ W → ∀ (a b c k : Digit W),
    dmac a b c k = dmacLimbs a b c k ∧
    (mulwide b c).1.toNat + (addc (mulwide b c).2 a).2.toNat +
      (addc (addc (mulwide b c).2 a).1 k).2.toNat ≤ 2 ^ W - 1

/-- The corner cases of the multiply-add, at every width that has the values (the table of R81). -/
def Obligations.DmacCornerCases : Prop :=
  ∀ (W : Nat), 1 ≤ W →
    dmac (0 : Digit W) 0 0 0 = (0, 0) ∧
    dmac 0 (maxDigit W) (maxDigit W) 0 = (1, maxDigit W - 1) ∧
    dmac (maxDigit W) (maxDigit W) (maxDigit W) (maxDigit W) = (maxDigit W, maxDigit W) ∧
    dmac (maxDigit W) 0 (maxDigit W) (maxDigit W) = (maxDigit W - 1, 1) ∧
    dmac (maxDigit W) (maxDigit W) 0 (maxDigit W) = (maxDigit W - 1, 1) ∧
    dmac 0 0 0 (maxDigit W) = (maxDigit W, 0) ∧
    dmac (maxDigit W) 1 1 (maxDigit W) = (maxDigit W, 1) ∧
    (2 ≤ W → dmac 0 2 (BitVec.ofNat W (2 ^ (W - 1))) 0 = (0, 1) ∧
      dmac (maxDigit W) (maxDigit W) 1 (maxDigit W) = (maxDigit W - 2, 2)) ∧
    ∀ x y z k : Digit W,
      dmac x 0 y 0 = (x, 0) ∧ dmac 0 x 1 0 = (x, 0) ∧ dmac x y z k = dmac x z y k

/-! ### `RCA` -/

/-- `RCA` whose host has kept its duties completes, and adds `b` into `a` exactly: the sum modulo `2^(W*n)` stands in
`a`, the flag says whether the true sum reached `2^(W*n)`, one bit of overflow is enough, and `b` is unchanged (R84). -/
def Obligations.RcaAddsSequences : Prop :=
  ∀ (b : Build) (s : Sys b), RcaReady s →
    ∃ t : Sys b, exec .rca ⟨b, s⟩ = .next ⟨b, t⟩ ∧
      value (t.seq s.PA s.NA.toNat) + t.CF.toNat * 2 ^ (b.W * s.NA.toNat) =
        value (s.seq s.PA s.NA.toNat) + value (s.seq s.PB s.NB.toNat) ∧
      value (t.seq s.PA s.NA.toNat) =
        (value (s.seq s.PA s.NA.toNat) + value (s.seq s.PB s.NB.toNat)) % 2 ^ (b.W * s.NA.toNat) ∧
      (t.CF = true ↔
        2 ^ (b.W * s.NA.toNat) ≤ value (s.seq s.PA s.NA.toNat) + value (s.seq s.PB s.NB.toNat)) ∧
      value (s.seq s.PA s.NA.toNat) + value (s.seq s.PB s.NB.toNat) < 2 ^ (b.W * s.NA.toNat + 1) ∧
      t.seq s.PB s.NB.toNat = s.seq s.PB s.NB.toNat

/-- `RCA` equals digit-by-digit application of the digit add, threaded from index 0 up over `b` extended with zeros,
although it stops early, with the interpretation of its result as an exact sum (R93). -/
def Obligations.RcaIsDigitByDigitAddition : Prop :=
  ∀ (b : Build) (s : Sys b), RcaReady s →
    let x : Nat → Digit b.W := fun i => s.cell (s.PA.toNat + i)
    let y : Nat → Digit b.W := fun i => if i < s.NB.toNat then s.cell (s.PB.toNat + i) else 0
    ∃ t : Sys b, exec .rca ⟨b, s⟩ = .next ⟨b, t⟩ ∧
      (∀ i, i < s.NA.toNat → t.cell (s.PA.toNat + i) = chainDigit x y false i) ∧
      t.CF = chainCarry x y false s.NA.toNat ∧
      value (t.seq s.PA s.NA.toNat) + t.CF.toNat * 2 ^ (b.W * s.NA.toNat) =
        value (s.seq s.PA s.NA.toNat) + value (s.seq s.PB s.NB.toNat)

/-- The results of `RCA` (R91): the stop index lies in `[m, n]`; the carry was 1 at every suffix position below it; `CF`
holds the carry that remained there, so a stop below the top leaves `CF` 0; the flag says whether the true sum reached
`2^(W*n)`; and no fault is raised for it. -/
def Obligations.RcaReportsStopIndexAndOverflow : Prop :=
  ∀ (b : Build) (s : Sys b), RcaReady s →
    let x : Nat → Digit b.W := fun i => s.cell (s.PA.toNat + i)
    let y : Nat → Digit b.W := fun i => if i < s.NB.toNat then s.cell (s.PB.toNat + i) else 0
    ∃ t : Sys b, exec .rca ⟨b, s⟩ = .next ⟨b, t⟩ ∧
      s.NB.toNat ≤ t.IDX.toNat ∧ t.IDX.toNat ≤ s.NA.toNat ∧
      (∀ i, s.NB.toNat ≤ i → i < t.IDX.toNat → chainCarry x y false i = true) ∧
      t.CF = chainCarry x y false t.IDX.toNat ∧
      (t.IDX.toNat < s.NA.toNat → t.CF = false) ∧
      (t.CF = true ↔
        2 ^ (b.W * s.NA.toNat) ≤ value (s.seq s.PA s.NA.toNat) + value (s.seq s.PB s.NB.toNat)) ∧
      t.STATUS = s.STATUS

/-- A successful `RCA` writes `a[0..IDX)`, `CF` and `IDX` and nothing else (R95); the digits from `IDX` up are
unchanged (R94).  `accesses` is the model's own record (log 6). -/
def Obligations.RcaFrame : Prop :=
  ∀ (b : Build) (s : Sys b), RcaReady s →
    ∃ t : Sys b, exec .rca ⟨b, s⟩ = .next ⟨b, t⟩ ∧
      t = { s with CF := t.CF, IDX := t.IDX, DM := t.DM, accesses := t.accesses } ∧
      (∀ addr, (addr < s.PA.toNat ∨ s.PA.toNat + t.IDX.toNat ≤ addr) → t.cell addr = s.cell addr)

/-- The accesses of a successful `RCA`, in order: read `a[i]`, read `b[i]`, write `a[i]` at every prefix position, then
read `a[i]`, write `a[i]` at the suffix positions below `IDX`, and no other (R43, R49, R89, R90).  The record is the
model's own (log 6). -/
def Obligations.RcaAccessesInOrder : Prop :=
  ∀ (b : Build) (s : Sys b), RcaReady s →
    ∃ t : Sys b, exec .rca ⟨b, s⟩ = .next ⟨b, t⟩ ∧
      t.accesses = s.accesses ++
        (List.range s.NB.toNat).flatMap (fun i =>
          [.read (s.PA.toNat + i), .read (s.PB.toNat + i), .write (s.PA.toNat + i)]) ++
        (List.range (t.IDX.toNat - s.NB.toNat)).flatMap (fun k =>
          [.read (s.PA.toNat + (s.NB.toNat + k)), .write (s.PA.toNat + (s.NB.toNat + k))])

/-- `RCA` does not read `CF`: whatever it held, the state after is the same (R88). -/
def Obligations.RcaIgnoresCarryIn : Prop :=
  ∀ (b : Build) (s : Sys b) (c : Bool), RcaReady s →
    exec .rca ⟨b, { s with CF := c }⟩ = exec .rca ⟨b, s⟩

/-- The edge cases of a ready `RCA` (the table of R92): an empty `b` leaves `DM` alone, makes no access and writes `CF`
and `IDX` with 0; with `m = n` the stop index is `n`. -/
def Obligations.RcaEdgeCases : Prop :=
  ∀ (b : Build) (s : Sys b), RcaReady s →
    (s.NB.toNat = 0 → exec .rca ⟨b, s⟩ = .next ⟨b, { s with CF := false, IDX := 0 }⟩) ∧
    (s.NB.toNat = s.NA.toNat → ∃ t : Sys b, exec .rca ⟨b, s⟩ = .next ⟨b, t⟩ ∧ t.IDX = s.NA)

/-! ### `CCP` -/

/-- `CCP` whose host has kept its duties completes, and adds `carry_in * 2^(W*start)` to `a` exactly, the digits below
`start` unchanged (R98). -/
def Obligations.CcpAddsTheCarry : Prop :=
  ∀ (b : Build) (s : Sys b), CcpReady s →
    ∃ t : Sys b, exec .ccp ⟨b, s⟩ = .next ⟨b, t⟩ ∧
      value (t.seq s.PA s.NA.toNat) + t.CF.toNat * 2 ^ (b.W * s.NA.toNat) =
        value (s.seq s.PA s.NA.toNat) + s.CF.toNat * 2 ^ (b.W * s.NB.toNat) ∧
      (∀ i, i < s.NB.toNat → t.cell (s.PA.toNat + i) = s.cell (s.PA.toNat + i))

/-- What `CCP` does to the run of `MAX` digits from `start` (R102, R104): without a carry nothing but `IDX` is written
with a new value; a run that ends at `j < n` becomes zeros, `a[j]` goes up by 1 and the carry is gone; a run up to the
top, an empty one at `start = n` too, becomes zeros and the carry remains. -/
def Obligations.CcpCarriesThroughTheRunOfMax : Prop :=
  ∀ (b : Build) (s : Sys b), CcpReady s →
    (s.CF = false → exec .ccp ⟨b, s⟩ = .next ⟨b, { s with IDX := s.NB }⟩) ∧
    (∀ j, s.CF = true → s.NB.toNat ≤ j → j < s.NA.toNat →
      (∀ i, s.NB.toNat ≤ i → i < j → s.cell (s.PA.toNat + i) = maxDigit b.W) →
      s.cell (s.PA.toNat + j) ≠ maxDigit b.W →
      ∃ t : Sys b, exec .ccp ⟨b, s⟩ = .next ⟨b, t⟩ ∧ t.CF = false ∧ t.IDX.toNat = j + 1 ∧
        (∀ i, s.NB.toNat ≤ i → i < j → t.cell (s.PA.toNat + i) = 0) ∧
        t.cell (s.PA.toNat + j) = s.cell (s.PA.toNat + j) + 1) ∧
    (s.CF = true →
      (∀ i, s.NB.toNat ≤ i → i < s.NA.toNat → s.cell (s.PA.toNat + i) = maxDigit b.W) →
      ∃ t : Sys b, exec .ccp ⟨b, s⟩ = .next ⟨b, t⟩ ∧ t.CF = true ∧ t.IDX = s.NA ∧
        ∀ i, s.NB.toNat ≤ i → i < s.NA.toNat → t.cell (s.PA.toNat + i) = 0)

/-- A successful `CCP` writes `a[start..IDX)`, `CF` and `IDX` and nothing else (R105); `start <= IDX <= n`, and a carry
remains only at the top (R103).  `accesses` is the model's own record (log 6). -/
def Obligations.CcpFrame : Prop :=
  ∀ (b : Build) (s : Sys b), CcpReady s →
    ∃ t : Sys b, exec .ccp ⟨b, s⟩ = .next ⟨b, t⟩ ∧
      t = { s with CF := t.CF, IDX := t.IDX, DM := t.DM, accesses := t.accesses } ∧
      s.NB.toNat ≤ t.IDX.toNat ∧ t.IDX.toNat ≤ s.NA.toNat ∧ (t.CF = true → t.IDX = s.NA) ∧
      (∀ addr, (addr < s.PA.toNat + s.NB.toNat ∨ s.PA.toNat + t.IDX.toNat ≤ addr) →
        t.cell addr = s.cell addr)

/-- The accesses of a successful `CCP`, in order: read `a[i]`, write `a[i]` at each position from `start` to below
`IDX`, and no other (R43, R49, R101).  The record is the model's own (log 6). -/
def Obligations.CcpAccessesInOrder : Prop :=
  ∀ (b : Build) (s : Sys b), CcpReady s →
    ∃ t : Sys b, exec .ccp ⟨b, s⟩ = .next ⟨b, t⟩ ∧
      t.accesses = s.accesses ++
        (List.range (t.IDX.toNat - s.NB.toNat)).flatMap (fun k =>
          [.read (s.PA.toNat + (s.NB.toNat + k)), .write (s.PA.toNat + (s.NB.toNat + k))])

/-- `CCP` does not use `PB`, `A`, `B`, `C` or `K`: other values there change nothing else of the state after (R97). -/
def Obligations.CcpIgnoresOtherRegisters : Prop :=
  ∀ (b : Build) (s t : Sys b) (pb : BitVec b.AW) (va vb vc vk : Digit b.W),
    exec .ccp ⟨b, s⟩ = .next ⟨b, t⟩ →
    exec .ccp ⟨b, { s with PB := pb, A := va, B := vb, C := vc, K := vk }⟩ =
      .next ⟨b, { t with PB := pb, A := va, B := vb, C := vc, K := vk }⟩

/-- A successful `RCA` is the prefix loop started with carry 0, then a `CCP` with the prefix's carry in `CF` (R106). -/
def Obligations.RcaIsPrefixThenCcp : Prop :=
  ∀ (b : Build) (s : Sys b), RcaReady s →
    let p := prefixLoop s.PA s.PB s.NB.toNat 0 false s
    ∃ t : Sys b, exec .rca ⟨b, s⟩ = .next ⟨b, t⟩ ∧
      exec .ccp ⟨b, { p.2 with CF := p.1 }⟩ = .next ⟨b, t⟩

/-! ### Faults -/

/-- `NB > NA` raises `LENGTH` in `RCA` and `CCP`, before anything else is touched (R118). -/
def Obligations.LengthFault : Prop :=
  ∀ (b : Build) (s : Sys b), s.halted = false → s.NA.toNat < s.NB.toNat →
    ∀ i : Instr, i = .rca ∨ i = .ccp →
      ∃ t : Sys b, exec i ⟨b, s⟩ = .next ⟨b, t⟩ ∧ t.fault = 1#3 ∧ t = { s with STATUS := t.STATUS }

/-- A non-empty sequence past the end of `DM` raises `RANGE`, after `LENGTH` and before any access, in `RCA` for `a` or
`b` and in `CCP` for `a` (R119). -/
def Obligations.RangeFault : Prop :=
  ∀ (b : Build) (s : Sys b), s.halted = false → s.NB.toNat ≤ s.NA.toNat →
    ((0 < s.NA.toNat ∧ b.memDigits < s.PA.toNat + s.NA.toNat) ∨
        (0 < s.NB.toNat ∧ b.memDigits < s.PB.toNat + s.NB.toNat) →
      ∃ t : Sys b, exec .rca ⟨b, s⟩ = .next ⟨b, t⟩ ∧ t.fault = 2#3 ∧ t = { s with STATUS := t.STATUS }) ∧
    ((0 < s.NA.toNat ∧ b.memDigits < s.PA.toNat + s.NA.toNat) →
      ∃ t : Sys b, exec .ccp ⟨b, s⟩ = .next ⟨b, t⟩ ∧ t.fault = 2#3 ∧ t = { s with STATUS := t.STATUS })

/-- Two sequences that share a cell raise `ALIAS` in `RCA`, after `LENGTH` and `RANGE` and before any access (R120). -/
def Obligations.AliasFault : Prop :=
  ∀ (b : Build) (s : Sys b), s.halted = false → s.NB.toNat ≤ s.NA.toNat →
    InMemory s.PA s.NA → InMemory s.PB s.NB →
    (0 < s.NA.toNat ∧ 0 < s.NB.toNat ∧
      s.PA.toNat < s.PB.toNat + s.NB.toNat ∧ s.PB.toNat < s.PA.toNat + s.NA.toNat) →
    ∃ t : Sys b, exec .rca ⟨b, s⟩ = .next ⟨b, t⟩ ∧ t.fault = 3#3 ∧ t = { s with STATUS := t.STATUS }

/-- A write to `CMD` (R109, R121): ignored while halted, the command for the four command words, `ILLEGAL` and nothing
else for the 252 others. -/
def Obligations.CmdWriteIssuesCommand : Prop :=
  ∀ (b : Build) (s : Sys b) (v : Nat), v < 2 ^ 8 →
    (s.halted = true → exec (.wr .CMD v) ⟨b, s⟩ = .next ⟨b, s⟩) ∧
    (s.halted = false →
      if v = 0x01 then exec (.wr .CMD v) ⟨b, s⟩ = exec .dadc ⟨b, s⟩
      else if v = 0x02 then exec (.wr .CMD v) ⟨b, s⟩ = exec .dmac ⟨b, s⟩
      else if v = 0x03 then exec (.wr .CMD v) ⟨b, s⟩ = exec .rca ⟨b, s⟩
      else if v = 0x04 then exec (.wr .CMD v) ⟨b, s⟩ = exec .ccp ⟨b, s⟩
      else ∃ t : Sys b, exec (.wr .CMD v) ⟨b, s⟩ = .next ⟨b, t⟩ ∧ t.fault = 4#3 ∧
        t = { s with STATUS := t.STATUS })

/-- Taking a fault (R123): the code stands in `STATUS.FAULT`, the reserved bits and everything else are unchanged, the
block is halted, `fault_o` is 1 (R28, R130), and `RD STATUS` returns the code (R108). -/
def Obligations.FaultEntryRecordsTheCode : Prop :=
  ∀ (b : Build) (f : FaultKind) (s : Sys b),
    raise f s = { s with STATUS := (raise f s).STATUS } ∧
    (raise f s).fault = faultCode f ∧
    (raise f s).STATUS.extractLsb' 3 5 = s.STATUS.extractLsb' 3 5 ∧
    (raise f s).halted = true ∧ (raise f s).faultO = 1#1 ∧
    readReg (raise f s) .STATUS = (0#5 ++ faultCode f : BitVec 8) ∧
    faultCode .lengthFault = 1#3 ∧ faultCode .rangeFault = 2#3 ∧ faultCode .aliasFault = 3#3 ∧
    faultCode .illegalFault = 4#3

/-- Faults are precise, over all instructions: one that halts a running block has changed `STATUS.FAULT` and nothing
else, to one of the four codes (R123, R124). -/
def Obligations.FaultsArePrecise : Prop :=
  ∀ (b : Build) (s t : Sys b) (i : Instr),
    exec i ⟨b, s⟩ = .next ⟨b, t⟩ → s.halted = false → t.halted = true →
    t = { s with STATUS := t.STATUS } ∧
    (t.fault = 1#3 ∨ t.fault = 2#3 ∨ t.fault = 3#3 ∨ t.fault = 4#3) ∧
    t.STATUS.extractLsb' 3 5 = s.STATUS.extractLsb' 3 5

/-- While the block is halted, every command and every write to `CMD`, legal or not, is ignored (R125). -/
def Obligations.HaltedBlockIgnoresCommands : Prop :=
  ∀ (b : Build) (s : Sys b), (s.halted = true ↔ s.fault ≠ 0#3) ∧
    (s.halted = true →
      exec .dadc ⟨b, s⟩ = .next ⟨b, s⟩ ∧ exec .dmac ⟨b, s⟩ = .next ⟨b, s⟩ ∧
      exec .rca ⟨b, s⟩ = .next ⟨b, s⟩ ∧ exec .ccp ⟨b, s⟩ = .next ⟨b, s⟩ ∧
      ∀ v, v < 2 ^ 8 → exec (.wr .CMD v) ⟨b, s⟩ = .next ⟨b, s⟩)

/-- Only `RESET` clears a fault (R126), and the first fault's code stays until then (R127): over all lines of the host,
a step from a halted state that is no `RESET` leaves `STATUS` as it was, and a `RESET` ends the halted state. -/
def Obligations.OnlyResetClearsAFault : Prop :=
  ∀ (s t : State), s.sys.halted = true → step s = .next t →
    ((∀ rest, s.sys.pending ≠ .reset :: rest) → t.sys.STATUS = s.sys.STATUS ∧ t.sys.halted = true) ∧
    (∀ rest, s.sys.pending = .reset :: rest → t.sys.halted = false)

/-- Overflow is not a fault (R128): a digit command, and a sequence command whose host has kept its duties, leave
`STATUS` alone whatever carry they give. -/
def Obligations.OverflowIsNoFault : Prop :=
  ∀ (b : Build) (s t : Sys b),
    (exec .dadc ⟨b, s⟩ = .next ⟨b, t⟩ → t.STATUS = s.STATUS) ∧
    (exec .dmac ⟨b, s⟩ = .next ⟨b, t⟩ → t.STATUS = s.STATUS) ∧
    (RcaReady s → exec .rca ⟨b, s⟩ = .next ⟨b, t⟩ → t.STATUS = s.STATUS) ∧
    (CcpReady s → exec .ccp ⟨b, s⟩ = .next ⟨b, t⟩ → t.STATUS = s.STATUS)

/-! ### Register transactions -/

/-- `WR` (R107) is the transaction with `we = 1`, the register's index and the value at the register's width; on each of
the nine registers the host writes it leaves the value there, whole, and changes nothing else, whether or not the block is
halted. -/
def Obligations.WrWritesItsRegister : Prop :=
  ∀ (b : Build) (s : Sys b) (v : Nat),
    (∀ r : Reg, encode b (.wr r v) = ⟨true, r.index, some ⟨r.width b, BitVec.ofNat (r.width b) v⟩⟩) ∧
    (v < 2 ^ b.W →
      (∃ t : Sys b, exec (.wr .A v) ⟨b, s⟩ = .next ⟨b, t⟩ ∧ t.A.toNat = v ∧ t = { s with A := t.A }) ∧
      (∃ t : Sys b, exec (.wr .B v) ⟨b, s⟩ = .next ⟨b, t⟩ ∧ t.B.toNat = v ∧ t = { s with B := t.B }) ∧
      (∃ t : Sys b, exec (.wr .C v) ⟨b, s⟩ = .next ⟨b, t⟩ ∧ t.C.toNat = v ∧ t = { s with C := t.C }) ∧
      (∃ t : Sys b, exec (.wr .K v) ⟨b, s⟩ = .next ⟨b, t⟩ ∧ t.K.toNat = v ∧ t = { s with K := t.K })) ∧
    (v < 2 ^ 1 →
      ∃ t : Sys b, exec (.wr .CF v) ⟨b, s⟩ = .next ⟨b, t⟩ ∧ t.CF.toNat = v ∧ t = { s with CF := t.CF }) ∧
    (v < 2 ^ b.AW →
      (∃ t : Sys b, exec (.wr .PA v) ⟨b, s⟩ = .next ⟨b, t⟩ ∧ t.PA.toNat = v ∧ t = { s with PA := t.PA }) ∧
      (∃ t : Sys b, exec (.wr .NA v) ⟨b, s⟩ = .next ⟨b, t⟩ ∧ t.NA.toNat = v ∧ t = { s with NA := t.NA }) ∧
      (∃ t : Sys b, exec (.wr .PB v) ⟨b, s⟩ = .next ⟨b, t⟩ ∧ t.PB.toNat = v ∧ t = { s with PB := t.PB }) ∧
      (∃ t : Sys b, exec (.wr .NB v) ⟨b, s⟩ = .next ⟨b, t⟩ ∧ t.NB.toNat = v ∧ t = { s with NB := t.NB }))

/-- `RD` (R108) is the transaction with `we = 0` and the register's index; it returns the register's current value, at
the register's width, and changes no state of the block.  The
list of returned values is the model's picture of what the host was answered (log 5). -/
def Obligations.RdReturnsTheRegister : Prop :=
  ∀ (b : Build) (s : Sys b),
    (∀ r : Reg, encode b (.rd r) = ⟨false, r.index, none⟩) ∧
    exec (.rd .A) ⟨b, s⟩ = .next ⟨b, { s with returned := s.returned ++ [⟨b.W, s.A⟩] }⟩ ∧
    exec (.rd .B) ⟨b, s⟩ = .next ⟨b, { s with returned := s.returned ++ [⟨b.W, s.B⟩] }⟩ ∧
    exec (.rd .C) ⟨b, s⟩ = .next ⟨b, { s with returned := s.returned ++ [⟨b.W, s.C⟩] }⟩ ∧
    exec (.rd .K) ⟨b, s⟩ = .next ⟨b, { s with returned := s.returned ++ [⟨b.W, s.K⟩] }⟩ ∧
    exec (.rd .CF) ⟨b, s⟩ = .next ⟨b, { s with returned := s.returned ++ [⟨1, BitVec.ofBool s.CF⟩] }⟩ ∧
    exec (.rd .PA) ⟨b, s⟩ = .next ⟨b, { s with returned := s.returned ++ [⟨b.AW, s.PA⟩] }⟩ ∧
    exec (.rd .NA) ⟨b, s⟩ = .next ⟨b, { s with returned := s.returned ++ [⟨b.AW, s.NA⟩] }⟩ ∧
    exec (.rd .PB) ⟨b, s⟩ = .next ⟨b, { s with returned := s.returned ++ [⟨b.AW, s.PB⟩] }⟩ ∧
    exec (.rd .NB) ⟨b, s⟩ = .next ⟨b, { s with returned := s.returned ++ [⟨b.AW, s.NB⟩] }⟩ ∧
    exec (.rd .IDX) ⟨b, s⟩ = .next ⟨b, { s with returned := s.returned ++ [⟨b.AW, s.IDX⟩] }⟩ ∧
    exec (.rd .STATUS) ⟨b, s⟩ =
      .next ⟨b, { s with returned := s.returned ++ [⟨8, (0#5 ++ s.fault : BitVec 8)⟩] }⟩

/-- The accesses that do nothing (R113): a `WR` to `IDX`, `STATUS` or a reserved index changes no state; an `RD` of
`CMD` or a reserved index returns 0 and changes no state of the block. -/
def Obligations.AccessesThatDoNothing : Prop :=
  ∀ (b : Build) (s : Sys b) (v : Nat) (n : Fin 4),
    (v < 2 ^ b.AW → exec (.wr .IDX v) ⟨b, s⟩ = .next ⟨b, s⟩) ∧
    (v < 2 ^ 8 → exec (.wr .STATUS v) ⟨b, s⟩ = .next ⟨b, s⟩) ∧
    (v < 2 ^ 8 → exec (.wr (.reserved n) v) ⟨b, s⟩ = .next ⟨b, s⟩) ∧
    exec (.rd .CMD) ⟨b, s⟩ = .next ⟨b, { s with returned := s.returned ++ [⟨8, 0#8⟩] }⟩ ∧
    exec (.rd (.reserved n)) ⟨b, s⟩ = .next ⟨b, { s with returned := s.returned ++ [⟨8, 0#8⟩] }⟩

/-- A value wider than its register cannot be presented; the model refuses such a `WR` by name (R53; log 7). -/
def Obligations.TooWideWrIsRefused : Prop :=
  ∀ (s : State) (r : Reg) (v : Nat),
    2 ^ r.width s.build ≤ v → exec (.wr r v) s = .refused .valueTooWide

/-! ### Host lines -/

/-- `MW` sets its cell and no other, and no register, where the cell exists; elsewhere the line is refused (R110). -/
def Obligations.MwWritesOneCell : Prop :=
  ∀ (b : Build) (s : Sys b) (addr : Nat) (v : Digit b.W) (rest : List (HostLine b.W)),
    s.pending = .mw addr v :: rest →
    (addr < b.memDigits →
      ∃ t : Sys b, step ⟨b, s⟩ = .next ⟨b, t⟩ ∧ t.cell addr = v ∧
        (∀ other, other ≠ addr → t.cell other = s.cell other) ∧
        t = { s with DM := t.DM, pending := rest }) ∧
    (b.memDigits ≤ addr → step ⟨b, s⟩ = .refused .noSuchCell)

/-- `MR` returns its cell and changes nothing, where the cell exists; elsewhere the line is refused (R111, U12). -/
def Obligations.MrReturnsTheCell : Prop :=
  ∀ (b : Build) (s : Sys b) (addr : Nat) (rest : List (HostLine b.W)),
    s.pending = .mr addr :: rest →
    (addr < b.memDigits →
      step ⟨b, s⟩ =
        .next ⟨b, { s with pending := rest, returned := s.returned ++ [⟨b.W, s.cell addr⟩] }⟩) ∧
    (b.memDigits ≤ addr → step ⟨b, s⟩ = .refused .noSuchCell)

/-- A read of a cell returns the value most recently written to it, and a write changes no other cell's answer (R44). -/
def Obligations.MrAfterMwReturnsTheValue : Prop :=
  ∀ (b : Build) (s : Sys b) (addr other : Nat) (v : Digit b.W) (rest : List (HostLine b.W)),
    addr < b.memDigits → other < b.memDigits →
    s.pending = .mw addr v :: .mr addr :: .mr other :: rest →
    ∃ t u w : State, step ⟨b, s⟩ = .next t ∧ step t = .next u ∧ step u = .next w ∧
      w.sys.returned = s.returned ++ [⟨b.W, v⟩, ⟨b.W, if other = addr then v else s.cell other⟩]

/-- `RESET` sets every register to 0, so the block is not halted and `fault_o` is 0, and leaves `DM` alone (R136). -/
def Obligations.ResetClearsRegistersAndKeepsMemory : Prop :=
  ∀ (b : Build) (s : Sys b) (rest : List (HostLine b.W)), s.pending = .reset :: rest →
    ∃ t : Sys b, step ⟨b, s⟩ = .next ⟨b, t⟩ ∧
      t.A = 0 ∧ t.B = 0 ∧ t.C = 0 ∧ t.K = 0 ∧ t.CF = false ∧ t.PA = 0 ∧ t.NA = 0 ∧ t.PB = 0 ∧ t.NB = 0 ∧
      t.IDX = 0 ∧ t.STATUS = 0 ∧ t.halted = false ∧ t.faultO = 0#1 ∧
      t.DM = s.DM ∧ (∀ addr, t.cell addr = s.cell addr) ∧
      t = { s with
        A := 0, B := 0, C := 0, K := 0, CF := false, PA := 0, NA := 0, PB := 0, NB := 0, IDX := 0, STATUS := 0,
        pending := rest }

/-! ### The whole machine -/

/-- After reset every register holds 0, the block is not halted and `fault_o` is 0, whatever the build (R29). -/
def Obligations.ResetValues : Prop :=
  ∀ b : Build,
    (State.resetOf b).sys.A.toNat = 0 ∧ (State.resetOf b).sys.B.toNat = 0 ∧ (State.resetOf b).sys.C.toNat = 0 ∧
    (State.resetOf b).sys.K.toNat = 0 ∧ (State.resetOf b).sys.CF = false ∧ (State.resetOf b).sys.PA.toNat = 0 ∧
    (State.resetOf b).sys.NA.toNat = 0 ∧ (State.resetOf b).sys.PB.toNat = 0 ∧ (State.resetOf b).sys.NB.toNat = 0 ∧
    (State.resetOf b).sys.IDX.toNat = 0 ∧ (State.resetOf b).sys.STATUS = 0#8 ∧
    (State.resetOf b).sys.halted = false ∧ (State.resetOf b).sys.faultO = 0#1

/-- The invariant holds at reset: canonical memory inside `DM`, and a `STATUS` that can be produced (R21, R34). -/
def Obligations.ResetMeetsTheInvariant : Prop := Inv State.reset

/-- Every step keeps the invariant: memory stays canonical, no cell outside `DM` is ever listed (R34, R41), and `STATUS`
stays one of the five codes with its reserved bits 0 (R21). -/
def Obligations.StepKeepsTheInvariant : Prop :=
  ∀ s t : State, Inv s → step s = .next t → Inv t

/-- No step changes the build (R5). -/
def Obligations.StepKeepsTheBuild : Prop :=
  ∀ s t : State, step s = .next t → t.build = s.build

/-- No command writes `B`, `C`, a descriptor, the host's list or a cell outside `a[0..n)` (R14, R18, R31). -/
def Obligations.CommandsWriteOnlyTheirSequence : Prop :=
  ∀ (b : Build) (s t : Sys b) (c : Command), exec c.instr ⟨b, s⟩ = .next ⟨b, t⟩ →
    t.B = s.B ∧ t.C = s.C ∧ t.PA = s.PA ∧ t.NA = s.NA ∧ t.PB = s.PB ∧ t.NB = s.NB ∧
    t.powerUp = s.powerUp ∧ t.pending = s.pending ∧ t.returned = s.returned ∧
    (∀ addr, (addr < s.PA.toNat ∨ s.PA.toNat + s.NA.toNat ≤ addr) → t.cell addr = s.cell addr)

/-- Every line a host program may hold completes: the step answers a next state with that line taken (R149). -/
def Obligations.PresentableLinesComplete : Prop :=
  ∀ (b : Build) (s : Sys b) (line : HostLine b.W) (rest : List (HostLine b.W)),
    s.pending = line :: rest → lineOk b line = true →
    ∃ t : Sys b, step ⟨b, s⟩ = .next ⟨b, t⟩ ∧ t.pending = rest

/-- The two carries stay apart (R17): `K` has no influence on `DADC`, `RCA` or `CCP` and they leave it alone, and `CF`
has none on `DMAC`, which leaves it alone. -/
def Obligations.CarriesStayApart : Prop :=
  ∀ (b : Build) (s t : Sys b) (k : Digit b.W) (c : Bool),
    (∀ i : Instr, i = .dadc ∨ i = .rca ∨ i = .ccp → exec i ⟨b, s⟩ = .next ⟨b, t⟩ →
      t.K = s.K ∧ exec i ⟨b, { s with K := k }⟩ = .next ⟨b, { t with K := k }⟩) ∧
    (exec .dmac ⟨b, s⟩ = .next ⟨b, t⟩ →
      t.CF = s.CF ∧ exec .dmac ⟨b, { s with CF := c }⟩ = .next ⟨b, { t with CF := c }⟩)

/-- The results of `RCA` depend on the descriptors and the digits of the two sequences alone (R24, R150). -/
def Obligations.RcaDependsOnlyOnWhatItReads : Prop :=
  ∀ (b : Build) (s s' : Sys b), RcaReady s → RcaReady s' →
    s'.PA = s.PA → s'.NA = s.NA → s'.PB = s.PB → s'.NB = s.NB →
    s'.seq s.PA s.NA.toNat = s.seq s.PA s.NA.toNat → s'.seq s.PB s.NB.toNat = s.seq s.PB s.NB.toNat →
    ∃ t t' : Sys b, exec .rca ⟨b, s⟩ = .next ⟨b, t⟩ ∧ exec .rca ⟨b, s'⟩ = .next ⟨b, t'⟩ ∧
      t'.CF = t.CF ∧ t'.IDX = t.IDX ∧ t'.seq s.PA s.NA.toNat = t.seq s.PA s.NA.toNat

/-- Two instances on one memory, one command after the other: when the `a` of the first is disjoint from the `a` and
the `b` of the second, the second's results are as if it had run alone (R134). -/
def Obligations.DisjointInstancesDoNotInterfere : Prop :=
  ∀ (b : Build) (first second : Sys b),
    second.DM = first.DM → second.powerUp = first.powerUp → RcaReady first → RcaReady second →
    Apart first.PA first.NA second.PA second.NA → Apart first.PA first.NA second.PB second.NB →
    ∃ t u w : Sys b, exec .rca ⟨b, first⟩ = .next ⟨b, t⟩ ∧ exec .rca ⟨b, second⟩ = .next ⟨b, u⟩ ∧
      exec .rca ⟨b, { second with DM := t.DM }⟩ = .next ⟨b, w⟩ ∧
      w.CF = u.CF ∧ w.IDX = u.IDX ∧
      w.seq second.PA second.NA.toNat = u.seq second.PA second.NA.toNat
end

