-- ==== Sys2Proof/Laws/Arithmetic.lean ====
section
/-!
SUPPORT. What the arithmetic of the block computes, over unbounded integers (spec/00_scope.md R11,
spec/40_digit_add_with_carry.md, spec/41_digit_multiply_add_with_carry.md).
-/

namespace Sys2Proof.Machine

variable {W : Nat}

theorem carryDigit_toNat (hW : 1 ≤ W) (c : Bool) : (carryDigit W c).toNat = c.toNat := by
  have h : 2 ^ 1 ≤ 2 ^ W := Nat.pow_le_pow_right (by decide) hW
  have hc : c.toNat ≤ 1 := Bool.toNat_le c
  simp only [carryDigit, BitVec.toNat_ofNat]
  exact Nat.mod_eq_of_lt (by omega)

@[simp] theorem addc_sum (x y : Digit W) : (addc x y).1 = x + y := rfl

@[simp] theorem addc_carry (x y : Digit W) : (addc x y).2 = decide (2 ^ W ≤ x.toNat + y.toNat) := rfl

/-- "It always holds that `s + c * 2^W = x + y`" (R11). -/
theorem addc_toNat (x y : Digit W) :
    (addc x y).1.toNat + (addc x y).2.toNat * 2 ^ W = x.toNat + y.toNat := by
  have hx := x.isLt
  have hy := y.isLt
  by_cases h : 2 ^ W ≤ x.toNat + y.toNat
  · simp [h, BitVec.toNat_add, Nat.mod_eq_sub_mod h, Nat.mod_eq_of_lt (show x.toNat + y.toNat - 2 ^ W < 2 ^ W by omega)]
  · simp [h, BitVec.toNat_add, Nat.mod_eq_of_lt (show x.toNat + y.toNat < 2 ^ W by omega)]

/-- A digit and a carry are determined by what they stand for. -/
theorem digit_carry_unique {x y : Digit W} {c d : Bool}
    (h : x.toNat + c.toNat * 2 ^ W = y.toNat + d.toNat * 2 ^ W) : x = y ∧ c = d := by
  have hx := x.isLt
  have hy := y.isLt
  cases c <;> cases d <;> simp at h <;> first | omega | exact ⟨BitVec.eq_of_toNat_eq (by omega), rfl⟩

/-- The digit add is exact (R66). -/
theorem dadc_toNat (hW : 1 ≤ W) (x y : Digit W) (c : Bool) :
    (dadc x y c).1.toNat + (dadc x y c).2.toNat * 2 ^ W = x.toNat + y.toNat + c.toNat := by
  have hx := x.isLt
  have hy := y.isLt
  have hc := Bool.toNat_le c
  have hk := carryDigit_toNat hW c
  have h1 := addc_toNat x y
  by_cases h : 2 ^ W ≤ x.toNat + y.toNat
  · have hs : (x + y).toNat = x.toNat + y.toNat - 2 ^ W := by
      rw [addc_sum, addc_carry, decide_eq_true h, Bool.toNat_true] at h1; omega
    have : (x + y + carryDigit W c).toNat = (x + y).toNat + c.toNat := by
      rw [BitVec.toNat_add, hk, Nat.mod_eq_of_lt (by omega)]
    simp only [dadc, addc_carry, h, decide_true, if_true, addc_sum, this, hs, Bool.toNat_true]
    omega
  · have h2 := addc_toNat (x + y) (carryDigit W c)
    have hs : (x + y).toNat = x.toNat + y.toNat := by simpa [h] using h1
    simp only [dadc, addc_carry, h, decide_false, addc_sum, Bool.false_eq_true, if_false] at h2 ⊢
    omega

/-- Adding nothing changes nothing. -/
theorem dadc_zero_false (hW : 1 ≤ W) (x : Digit W) : dadc x 0 false = (x, false) := by
  have h := digit_carry_unique (x := (dadc x 0 false).1) (y := x) (c := (dadc x 0 false).2) (d := false)
    (by simpa using dadc_toNat hW x 0 false)
  exact Prod.ext h.1 h.2

/-- One step of the upper carry loop is an increment (R102). -/
theorem dadc_zero_true (hW : 1 ≤ W) (x : Digit W) : dadc x 0 true = (x + 1, decide (x = maxDigit W)) := by
  have hp : 2 ^ 1 ≤ 2 ^ W := Nat.pow_le_pow_right (by decide) hW
  have hx := x.isLt
  have h1 : (1 : Digit W).toNat = 1 := by
    show 1 % 2 ^ W = 1
    exact Nat.mod_eq_of_lt (by omega)
  have h0 : (0 : Digit W).toNat = 0 := Nat.zero_mod _
  have hmax : x = maxDigit W ↔ x.toNat = 2 ^ W - 1 := by
    rw [← BitVec.toNat_inj, maxDigit, BitVec.toNat_allOnes]
  have h := digit_carry_unique (x := (dadc x 0 true).1) (y := x + 1) (c := (dadc x 0 true).2)
    (d := decide (x = maxDigit W)) (by
      rw [dadc_toNat hW]
      by_cases hm : x.toNat = 2 ^ W - 1
      · have : (x + 1).toNat = 0 := by
          rw [BitVec.toNat_add, h1, hm, Nat.sub_add_cancel (by omega), Nat.mod_self]
        rw [decide_eq_true (hmax.2 hm), this, hm, h0, Bool.toNat_true]; omega
      · have : (x + 1).toNat = x.toNat + 1 := by
          rw [BitVec.toNat_add, h1, Nat.mod_eq_of_lt (by omega)]
        rw [decide_eq_false (fun h => hm (hmax.1 h)), this, h0, Bool.toNat_true, Bool.toNat_false]; omega)
  exact Prod.ext h.1 h.2

/-- The accumulator of `DMAC` holds the exact sum (R77). -/
theorem dmacSum_toNat (a b c k : Digit W) :
    (dmacSum a b c k).toNat = a.toNat + b.toNat * c.toNat + k.toNat := by
  have ha := a.isLt
  have hb := b.isLt
  have hc := c.isLt
  have hk := k.isLt
  have hp : 2 ^ (2 * W) = 2 ^ W * 2 ^ W := by rw [Nat.two_mul, Nat.pow_add]
  have hW : 2 ^ W ≤ 2 ^ (2 * W) := Nat.pow_le_pow_right (by decide) (by omega)
  have hbc : b.toNat * c.toNat ≤ (2 ^ W - 1) * (2 ^ W - 1) :=
    Nat.mul_le_mul (by omega) (by omega)
  obtain ⟨M, hM⟩ : ∃ M, 2 ^ W = M + 1 := ⟨2 ^ W - 1, by omega⟩
  have hlt : a.toNat + b.toNat * c.toNat + k.toNat < 2 ^ (2 * W) := by
    rw [hM] at ha hk hbc
    rw [hp, hM]
    simp at hbc
    nlinarith
  simp only [dmacSum, BitVec.toNat_add, BitVec.toNat_mul, BitVec.toNat_setWidth]
  rw [Nat.mod_eq_of_lt (a := a.toNat) (by omega), Nat.mod_eq_of_lt (a := b.toNat) (by omega),
    Nat.mod_eq_of_lt (a := c.toNat) (by omega), Nat.mod_eq_of_lt (a := k.toNat) (by omega),
    Nat.mod_eq_of_lt (a := b.toNat * c.toNat) (by omega),
    Nat.mod_eq_of_lt (a := a.toNat + b.toNat * c.toNat) (by omega), Nat.mod_eq_of_lt hlt]

/-- The multiply-add is exact (R75). -/
theorem dmac_toNat (a b c k : Digit W) :
    (dmac a b c k).1.toNat + (dmac a b c k).2.toNat * 2 ^ W = a.toNat + b.toNat * c.toNat + k.toNat := by
  have hlt := (dmacSum a b c k).isLt
  have hp : 2 ^ (2 * W) = 2 ^ W * 2 ^ W := by rw [Nat.two_mul, Nat.pow_add]
  have hhi : (dmacSum a b c k).toNat / 2 ^ W < 2 ^ W := Nat.div_lt_of_lt_mul (hp ▸ hlt)
  have hsplit := Nat.mod_add_div (dmacSum a b c k).toNat (2 ^ W)
  simp only [dmac, BitVec.extractLsb'_toNat, Nat.shiftRight_eq_div_pow, Nat.pow_zero, Nat.div_one,
    Nat.mod_eq_of_lt hhi]
  rw [← dmacSum_toNat, Nat.mul_comm _ (2 ^ W)]
  exact hsplit

end Sys2Proof.Machine
end

