-- ==== Sys2Proof/Laws/State.lean ====
section
/-!
SUPPORT. One lemma per field per update of `Sys`, each true by `rfl`, so that no proof unfolds a record update.
-/

namespace Sys2Proof.Machine

variable {b : Build}


/-! ### `memRead` -/

@[simp] theorem memRead_A (addr : Nat) (s : Sys b) : (memRead addr s).2.A = s.A := rfl
@[simp] theorem memRead_B (addr : Nat) (s : Sys b) : (memRead addr s).2.B = s.B := rfl
@[simp] theorem memRead_C (addr : Nat) (s : Sys b) : (memRead addr s).2.C = s.C := rfl
@[simp] theorem memRead_K (addr : Nat) (s : Sys b) : (memRead addr s).2.K = s.K := rfl
@[simp] theorem memRead_CF (addr : Nat) (s : Sys b) : (memRead addr s).2.CF = s.CF := rfl
@[simp] theorem memRead_PA (addr : Nat) (s : Sys b) : (memRead addr s).2.PA = s.PA := rfl
@[simp] theorem memRead_NA (addr : Nat) (s : Sys b) : (memRead addr s).2.NA = s.NA := rfl
@[simp] theorem memRead_PB (addr : Nat) (s : Sys b) : (memRead addr s).2.PB = s.PB := rfl
@[simp] theorem memRead_NB (addr : Nat) (s : Sys b) : (memRead addr s).2.NB = s.NB := rfl
@[simp] theorem memRead_IDX (addr : Nat) (s : Sys b) : (memRead addr s).2.IDX = s.IDX := rfl
@[simp] theorem memRead_STATUS (addr : Nat) (s : Sys b) : (memRead addr s).2.STATUS = s.STATUS := rfl
@[simp] theorem memRead_DM (addr : Nat) (s : Sys b) : (memRead addr s).2.DM = s.DM := rfl
@[simp] theorem memRead_powerUp (addr : Nat) (s : Sys b) : (memRead addr s).2.powerUp = s.powerUp := rfl
@[simp] theorem memRead_pending (addr : Nat) (s : Sys b) : (memRead addr s).2.pending = s.pending := rfl
@[simp] theorem memRead_returned (addr : Nat) (s : Sys b) : (memRead addr s).2.returned = s.returned := rfl
@[simp] theorem memRead_accesses (addr : Nat) (s : Sys b) :
    (memRead addr s).2.accesses = s.accesses ++ [.read addr] := rfl
@[simp] theorem memRead_value (addr : Nat) (s : Sys b) : (memRead addr s).1 = s.cell addr := rfl

/-! ### `memWrite` -/

@[simp] theorem memWrite_A (addr : Nat) (v : Digit b.W) (s : Sys b) : (memWrite addr v s).A = s.A := rfl
@[simp] theorem memWrite_B (addr : Nat) (v : Digit b.W) (s : Sys b) : (memWrite addr v s).B = s.B := rfl
@[simp] theorem memWrite_C (addr : Nat) (v : Digit b.W) (s : Sys b) : (memWrite addr v s).C = s.C := rfl
@[simp] theorem memWrite_K (addr : Nat) (v : Digit b.W) (s : Sys b) : (memWrite addr v s).K = s.K := rfl
@[simp] theorem memWrite_CF (addr : Nat) (v : Digit b.W) (s : Sys b) : (memWrite addr v s).CF = s.CF := rfl
@[simp] theorem memWrite_PA (addr : Nat) (v : Digit b.W) (s : Sys b) : (memWrite addr v s).PA = s.PA := rfl
@[simp] theorem memWrite_NA (addr : Nat) (v : Digit b.W) (s : Sys b) : (memWrite addr v s).NA = s.NA := rfl
@[simp] theorem memWrite_PB (addr : Nat) (v : Digit b.W) (s : Sys b) : (memWrite addr v s).PB = s.PB := rfl
@[simp] theorem memWrite_NB (addr : Nat) (v : Digit b.W) (s : Sys b) : (memWrite addr v s).NB = s.NB := rfl
@[simp] theorem memWrite_IDX (addr : Nat) (v : Digit b.W) (s : Sys b) : (memWrite addr v s).IDX = s.IDX := rfl
@[simp] theorem memWrite_STATUS (addr : Nat) (v : Digit b.W) (s : Sys b) :
    (memWrite addr v s).STATUS = s.STATUS := rfl
@[simp] theorem memWrite_DM (addr : Nat) (v : Digit b.W) (s : Sys b) :
    (memWrite addr v s).DM = storeCell s.DM addr v := rfl
@[simp] theorem memWrite_powerUp (addr : Nat) (v : Digit b.W) (s : Sys b) :
    (memWrite addr v s).powerUp = s.powerUp := rfl
@[simp] theorem memWrite_pending (addr : Nat) (v : Digit b.W) (s : Sys b) :
    (memWrite addr v s).pending = s.pending := rfl
@[simp] theorem memWrite_returned (addr : Nat) (v : Digit b.W) (s : Sys b) :
    (memWrite addr v s).returned = s.returned := rfl
@[simp] theorem memWrite_accesses (addr : Nat) (v : Digit b.W) (s : Sys b) :
    (memWrite addr v s).accesses = s.accesses ++ [.write addr] := rfl

/-! ### `raise` -/

@[simp] theorem raise_A (f : FaultKind) (s : Sys b) : (raise f s).A = s.A := rfl
@[simp] theorem raise_B (f : FaultKind) (s : Sys b) : (raise f s).B = s.B := rfl
@[simp] theorem raise_C (f : FaultKind) (s : Sys b) : (raise f s).C = s.C := rfl
@[simp] theorem raise_K (f : FaultKind) (s : Sys b) : (raise f s).K = s.K := rfl
@[simp] theorem raise_CF (f : FaultKind) (s : Sys b) : (raise f s).CF = s.CF := rfl
@[simp] theorem raise_PA (f : FaultKind) (s : Sys b) : (raise f s).PA = s.PA := rfl
@[simp] theorem raise_NA (f : FaultKind) (s : Sys b) : (raise f s).NA = s.NA := rfl
@[simp] theorem raise_PB (f : FaultKind) (s : Sys b) : (raise f s).PB = s.PB := rfl
@[simp] theorem raise_NB (f : FaultKind) (s : Sys b) : (raise f s).NB = s.NB := rfl
@[simp] theorem raise_IDX (f : FaultKind) (s : Sys b) : (raise f s).IDX = s.IDX := rfl
@[simp] theorem raise_STATUS (f : FaultKind) (s : Sys b) :
    (raise f s).STATUS = s.STATUS.extractLsb' 3 5 ++ faultCode f := rfl
@[simp] theorem raise_DM (f : FaultKind) (s : Sys b) : (raise f s).DM = s.DM := rfl
@[simp] theorem raise_powerUp (f : FaultKind) (s : Sys b) : (raise f s).powerUp = s.powerUp := rfl
@[simp] theorem raise_pending (f : FaultKind) (s : Sys b) : (raise f s).pending = s.pending := rfl
@[simp] theorem raise_returned (f : FaultKind) (s : Sys b) : (raise f s).returned = s.returned := rfl
@[simp] theorem raise_accesses (f : FaultKind) (s : Sys b) : (raise f s).accesses = s.accesses := rfl

/-! ### `resetRegisters` -/

@[simp] theorem resetRegisters_A (s : Sys b) : (resetRegisters s).A = 0 := rfl
@[simp] theorem resetRegisters_B (s : Sys b) : (resetRegisters s).B = 0 := rfl
@[simp] theorem resetRegisters_C (s : Sys b) : (resetRegisters s).C = 0 := rfl
@[simp] theorem resetRegisters_K (s : Sys b) : (resetRegisters s).K = 0 := rfl
@[simp] theorem resetRegisters_CF (s : Sys b) : (resetRegisters s).CF = false := rfl
@[simp] theorem resetRegisters_PA (s : Sys b) : (resetRegisters s).PA = 0 := rfl
@[simp] theorem resetRegisters_NA (s : Sys b) : (resetRegisters s).NA = 0 := rfl
@[simp] theorem resetRegisters_PB (s : Sys b) : (resetRegisters s).PB = 0 := rfl
@[simp] theorem resetRegisters_NB (s : Sys b) : (resetRegisters s).NB = 0 := rfl
@[simp] theorem resetRegisters_IDX (s : Sys b) : (resetRegisters s).IDX = 0 := rfl
@[simp] theorem resetRegisters_STATUS (s : Sys b) : (resetRegisters s).STATUS = 0 := rfl
@[simp] theorem resetRegisters_DM (s : Sys b) : (resetRegisters s).DM = s.DM := rfl
@[simp] theorem resetRegisters_powerUp (s : Sys b) : (resetRegisters s).powerUp = s.powerUp := rfl
@[simp] theorem resetRegisters_pending (s : Sys b) : (resetRegisters s).pending = s.pending := rfl
@[simp] theorem resetRegisters_returned (s : Sys b) : (resetRegisters s).returned = s.returned := rfl
@[simp] theorem resetRegisters_accesses (s : Sys b) : (resetRegisters s).accesses = s.accesses := rfl

/-! ### `giveBack` -/

@[simp] theorem giveBack_A (d : PortData) (s : Sys b) : (giveBack d s).A = s.A := rfl
@[simp] theorem giveBack_B (d : PortData) (s : Sys b) : (giveBack d s).B = s.B := rfl
@[simp] theorem giveBack_C (d : PortData) (s : Sys b) : (giveBack d s).C = s.C := rfl
@[simp] theorem giveBack_K (d : PortData) (s : Sys b) : (giveBack d s).K = s.K := rfl
@[simp] theorem giveBack_CF (d : PortData) (s : Sys b) : (giveBack d s).CF = s.CF := rfl
@[simp] theorem giveBack_PA (d : PortData) (s : Sys b) : (giveBack d s).PA = s.PA := rfl
@[simp] theorem giveBack_NA (d : PortData) (s : Sys b) : (giveBack d s).NA = s.NA := rfl
@[simp] theorem giveBack_PB (d : PortData) (s : Sys b) : (giveBack d s).PB = s.PB := rfl
@[simp] theorem giveBack_NB (d : PortData) (s : Sys b) : (giveBack d s).NB = s.NB := rfl
@[simp] theorem giveBack_IDX (d : PortData) (s : Sys b) : (giveBack d s).IDX = s.IDX := rfl
@[simp] theorem giveBack_STATUS (d : PortData) (s : Sys b) : (giveBack d s).STATUS = s.STATUS := rfl
@[simp] theorem giveBack_DM (d : PortData) (s : Sys b) : (giveBack d s).DM = s.DM := rfl
@[simp] theorem giveBack_powerUp (d : PortData) (s : Sys b) : (giveBack d s).powerUp = s.powerUp := rfl
@[simp] theorem giveBack_pending (d : PortData) (s : Sys b) : (giveBack d s).pending = s.pending := rfl
@[simp] theorem giveBack_returned (d : PortData) (s : Sys b) : (giveBack d s).returned = s.returned ++ [d] := rfl
@[simp] theorem giveBack_accesses (d : PortData) (s : Sys b) : (giveBack d s).accesses = s.accesses := rfl

/-! ### `takeLine` -/

@[simp] theorem takeLine_A (rest : List (HostLine b.W)) (s : Sys b) : (takeLine rest s).A = s.A := rfl
@[simp] theorem takeLine_B (rest : List (HostLine b.W)) (s : Sys b) : (takeLine rest s).B = s.B := rfl
@[simp] theorem takeLine_C (rest : List (HostLine b.W)) (s : Sys b) : (takeLine rest s).C = s.C := rfl
@[simp] theorem takeLine_K (rest : List (HostLine b.W)) (s : Sys b) : (takeLine rest s).K = s.K := rfl
@[simp] theorem takeLine_CF (rest : List (HostLine b.W)) (s : Sys b) : (takeLine rest s).CF = s.CF := rfl
@[simp] theorem takeLine_PA (rest : List (HostLine b.W)) (s : Sys b) : (takeLine rest s).PA = s.PA := rfl
@[simp] theorem takeLine_NA (rest : List (HostLine b.W)) (s : Sys b) : (takeLine rest s).NA = s.NA := rfl
@[simp] theorem takeLine_PB (rest : List (HostLine b.W)) (s : Sys b) : (takeLine rest s).PB = s.PB := rfl
@[simp] theorem takeLine_NB (rest : List (HostLine b.W)) (s : Sys b) : (takeLine rest s).NB = s.NB := rfl
@[simp] theorem takeLine_IDX (rest : List (HostLine b.W)) (s : Sys b) : (takeLine rest s).IDX = s.IDX := rfl
@[simp] theorem takeLine_STATUS (rest : List (HostLine b.W)) (s : Sys b) : (takeLine rest s).STATUS = s.STATUS := rfl
@[simp] theorem takeLine_DM (rest : List (HostLine b.W)) (s : Sys b) : (takeLine rest s).DM = s.DM := rfl
@[simp] theorem takeLine_powerUp (rest : List (HostLine b.W)) (s : Sys b) :
    (takeLine rest s).powerUp = s.powerUp := rfl
@[simp] theorem takeLine_pending (rest : List (HostLine b.W)) (s : Sys b) : (takeLine rest s).pending = rest := rfl
@[simp] theorem takeLine_returned (rest : List (HostLine b.W)) (s : Sys b) :
    (takeLine rest s).returned = s.returned := rfl
@[simp] theorem takeLine_accesses (rest : List (HostLine b.W)) (s : Sys b) :
    (takeLine rest s).accesses = s.accesses := rfl

/-! ### `dadcCommand` -/

@[simp] theorem dadcCommand_A (s : Sys b) : (dadcCommand s).A = (dadc s.A s.B s.CF).1 := rfl
@[simp] theorem dadcCommand_B (s : Sys b) : (dadcCommand s).B = s.B := rfl
@[simp] theorem dadcCommand_C (s : Sys b) : (dadcCommand s).C = s.C := rfl
@[simp] theorem dadcCommand_K (s : Sys b) : (dadcCommand s).K = s.K := rfl
@[simp] theorem dadcCommand_CF (s : Sys b) : (dadcCommand s).CF = (dadc s.A s.B s.CF).2 := rfl
@[simp] theorem dadcCommand_PA (s : Sys b) : (dadcCommand s).PA = s.PA := rfl
@[simp] theorem dadcCommand_NA (s : Sys b) : (dadcCommand s).NA = s.NA := rfl
@[simp] theorem dadcCommand_PB (s : Sys b) : (dadcCommand s).PB = s.PB := rfl
@[simp] theorem dadcCommand_NB (s : Sys b) : (dadcCommand s).NB = s.NB := rfl
@[simp] theorem dadcCommand_IDX (s : Sys b) : (dadcCommand s).IDX = s.IDX := rfl
@[simp] theorem dadcCommand_STATUS (s : Sys b) : (dadcCommand s).STATUS = s.STATUS := rfl
@[simp] theorem dadcCommand_DM (s : Sys b) : (dadcCommand s).DM = s.DM := rfl
@[simp] theorem dadcCommand_powerUp (s : Sys b) : (dadcCommand s).powerUp = s.powerUp := rfl
@[simp] theorem dadcCommand_pending (s : Sys b) : (dadcCommand s).pending = s.pending := rfl
@[simp] theorem dadcCommand_returned (s : Sys b) : (dadcCommand s).returned = s.returned := rfl
@[simp] theorem dadcCommand_accesses (s : Sys b) : (dadcCommand s).accesses = s.accesses := rfl

/-! ### `dmacCommand` -/

@[simp] theorem dmacCommand_A (s : Sys b) : (dmacCommand s).A = (dmac s.A s.B s.C s.K).1 := rfl
@[simp] theorem dmacCommand_B (s : Sys b) : (dmacCommand s).B = s.B := rfl
@[simp] theorem dmacCommand_C (s : Sys b) : (dmacCommand s).C = s.C := rfl
@[simp] theorem dmacCommand_K (s : Sys b) : (dmacCommand s).K = (dmac s.A s.B s.C s.K).2 := rfl
@[simp] theorem dmacCommand_CF (s : Sys b) : (dmacCommand s).CF = s.CF := rfl
@[simp] theorem dmacCommand_PA (s : Sys b) : (dmacCommand s).PA = s.PA := rfl
@[simp] theorem dmacCommand_NA (s : Sys b) : (dmacCommand s).NA = s.NA := rfl
@[simp] theorem dmacCommand_PB (s : Sys b) : (dmacCommand s).PB = s.PB := rfl
@[simp] theorem dmacCommand_NB (s : Sys b) : (dmacCommand s).NB = s.NB := rfl
@[simp] theorem dmacCommand_IDX (s : Sys b) : (dmacCommand s).IDX = s.IDX := rfl
@[simp] theorem dmacCommand_STATUS (s : Sys b) : (dmacCommand s).STATUS = s.STATUS := rfl
@[simp] theorem dmacCommand_DM (s : Sys b) : (dmacCommand s).DM = s.DM := rfl
@[simp] theorem dmacCommand_powerUp (s : Sys b) : (dmacCommand s).powerUp = s.powerUp := rfl
@[simp] theorem dmacCommand_pending (s : Sys b) : (dmacCommand s).pending = s.pending := rfl
@[simp] theorem dmacCommand_returned (s : Sys b) : (dmacCommand s).returned = s.returned := rfl
@[simp] theorem dmacCommand_accesses (s : Sys b) : (dmacCommand s).accesses = s.accesses := rfl

/-! ### `finish` -/

@[simp] theorem finish_A (e : LoopEnd b) : (finish e).A = e.state.A := rfl
@[simp] theorem finish_B (e : LoopEnd b) : (finish e).B = e.state.B := rfl
@[simp] theorem finish_C (e : LoopEnd b) : (finish e).C = e.state.C := rfl
@[simp] theorem finish_K (e : LoopEnd b) : (finish e).K = e.state.K := rfl
@[simp] theorem finish_CF (e : LoopEnd b) : (finish e).CF = e.carry := rfl
@[simp] theorem finish_PA (e : LoopEnd b) : (finish e).PA = e.state.PA := rfl
@[simp] theorem finish_NA (e : LoopEnd b) : (finish e).NA = e.state.NA := rfl
@[simp] theorem finish_PB (e : LoopEnd b) : (finish e).PB = e.state.PB := rfl
@[simp] theorem finish_NB (e : LoopEnd b) : (finish e).NB = e.state.NB := rfl
@[simp] theorem finish_IDX (e : LoopEnd b) : (finish e).IDX = BitVec.ofNat b.AW e.index := rfl
@[simp] theorem finish_STATUS (e : LoopEnd b) : (finish e).STATUS = e.state.STATUS := rfl
@[simp] theorem finish_DM (e : LoopEnd b) : (finish e).DM = e.state.DM := rfl
@[simp] theorem finish_powerUp (e : LoopEnd b) : (finish e).powerUp = e.state.powerUp := rfl
@[simp] theorem finish_pending (e : LoopEnd b) : (finish e).pending = e.state.pending := rfl
@[simp] theorem finish_returned (e : LoopEnd b) : (finish e).returned = e.state.returned := rfl
@[simp] theorem finish_accesses (e : LoopEnd b) : (finish e).accesses = e.state.accesses := rfl

/-! ### What a state shows of its registers -/

/-- The digit of a cell depends on the memory and the power-up alone. -/
theorem cell_congr {s t : Sys b} (hDM : t.DM = s.DM) (hp : t.powerUp = s.powerUp) (addr : Nat) :
    t.cell addr = s.cell addr := by
  simp [Sys.cell, hDM, hp]

/-- The fault field depends on `STATUS` alone. -/
theorem fault_congr {s t : Sys b} (h : t.STATUS = s.STATUS) : t.fault = s.fault := by simp [Sys.fault, h]

/-- Whether a block is halted depends on `STATUS` alone. -/
theorem halted_congr {s t : Sys b} (h : t.STATUS = s.STATUS) : t.halted = s.halted := by
  simp [Sys.halted, fault_congr h]

theorem low_bits_of_append (x : BitVec 5) (y : BitVec 3) : (x ++ y).extractLsb' 0 3 = y := by
  ext i hi
  rw [BitVec.getElem_extractLsb', BitVec.getLsbD_append, if_pos (by omega), Nat.zero_add,
    BitVec.getLsbD_eq_getElem hi]

/-- The code that taking a fault leaves in `STATUS.FAULT` (R123). -/
@[simp] theorem raise_fault (f : FaultKind) (s : Sys b) : (raise f s).fault = faultCode f :=
  low_bits_of_append _ _

/-- A block that takes a fault is halted (R125). -/
@[simp] theorem raise_halted (f : FaultKind) (s : Sys b) : (raise f s).halted = true := by
  cases f <;> simp [Sys.halted, faultCode]

/-- Everything `issue` can do: nothing while halted, the command otherwise (R125). -/
theorem issue_cases (command : Sys b → Sys b) (s : Sys b) :
    (s.halted = true ∧ issue command s = s) ∨ (s.halted = false ∧ issue command s = command s) := by
  cases h : s.halted <;> simp [issue, h]

theorem issue_of_halted {command : Sys b → Sys b} {s : Sys b} (h : s.halted = true) : issue command s = s := by
  simp [issue, h]

theorem issue_of_running {command : Sys b → Sys b} {s : Sys b} (h : s.halted = false) :
    issue command s = command s := by
  simp [issue, h]

end Sys2Proof.Machine
end

