-- ==== Sys2Proof/Laws/Memory.lean ====
section
/-!
SUPPORT. The laws of the digit memory (spec/20_memory.md R38, R39, R44) and of its canonical form.
-/

namespace Sys2Proof.Machine

/-! ### Reading after writing -/

@[simp] theorem findCell_storeCell_same {W : Nat} (m : Memory W) (addr : Nat) (v : Digit W) :
    findCell (storeCell m addr v) addr = some v := by
  induction m with
  | nil => simp [storeCell, findCell]
  | cons c rest ih =>
    obtain ⟨key, x⟩ := c
    rcases lt_trichotomy addr key with h | h | h
    · simp [storeCell, findCell, h]
    · simp [storeCell, findCell, h]
    · simp [storeCell, findCell, ih, h.not_gt, h.ne, h.ne']

theorem findCell_storeCell_ne {W : Nat} (m : Memory W) {addr other : Nat} (v : Digit W) (h : other ≠ addr) :
    findCell (storeCell m addr v) other = findCell m other := by
  induction m with
  | nil => simp [storeCell, findCell, h.symm]
  | cons c rest ih =>
    obtain ⟨key, x⟩ := c
    rcases lt_trichotomy addr key with hk | hk | hk
    · simp [storeCell, findCell, hk, h.symm]
    · subst hk; simp [storeCell, findCell, h.symm]
    · simp [storeCell, findCell, ih, hk.not_gt, hk.ne']

/-! ### The canonical form -/

/-- Everything a store can list: the cell stored, or a cell listed before. -/
theorem mem_storeCell {W : Nat} {m : Memory W} {addr : Nat} {v : Digit W} {c : Nat × Digit W}
    (h : c ∈ storeCell m addr v) : c = (addr, v) ∨ c ∈ m := by
  induction m with
  | nil => simpa [storeCell] using h
  | cons d rest ih =>
    obtain ⟨key, x⟩ := d
    rcases lt_trichotomy addr key with hk | hk | hk
    · simpa [storeCell, hk] using h
    · subst hk
      simp [storeCell] at h
      tauto
    · simp [storeCell, hk.not_gt, hk.ne'] at h
      rcases h with h | h
      · simp [h]
      · rcases ih h with h | h <;> simp [h]

/-- A store keeps the canonical form. -/
theorem storeCell_wf {W : Nat} {m : Memory W} (hm : Memory.wf m) (addr : Nat) (v : Digit W) :
    Memory.wf (storeCell m addr v) := by
  induction m with
  | nil => simp [storeCell, Memory.wf]
  | cons d rest ih =>
    obtain ⟨key, x⟩ := d
    obtain ⟨hd, hr⟩ := List.pairwise_cons.1 hm
    rcases lt_trichotomy addr key with hk | hk | hk
    · simp only [storeCell, hk, if_true]
      refine List.pairwise_cons.2 ⟨fun c hc => ?_, hm⟩
      rcases List.mem_cons.1 hc with rfl | hc
      · exact hk
      · exact hk.trans (hd c hc)
    · subst hk
      simp only [storeCell, lt_irrefl, if_false, if_true]
      exact List.pairwise_cons.2 ⟨hd, hr⟩
    · simp only [storeCell, hk.not_gt, hk.ne', if_false]
      refine List.pairwise_cons.2 ⟨fun c hc => ?_, ih hr⟩
      rcases mem_storeCell hc with rfl | hc
      · exact hk
      · exact hd c hc

/-- A store to a cell that exists lists only cells that exist. -/
theorem storeCell_cells {W top : Nat} {m : Memory W} (hm : ∀ c ∈ m, c.1 < top) {addr : Nat} (h : addr < top)
    (v : Digit W) : ∀ c ∈ storeCell m addr v, c.1 < top := by
  intro c hc
  rcases mem_storeCell hc with rfl | hc
  · exact h
  · exact hm c hc

/-! ### Cells -/

variable {b : Build}

@[simp] theorem memRead_cell (addr other : Nat) (s : Sys b) : (memRead addr s).2.cell other = s.cell other := rfl

/-- A write replaces the digit of its cell and no other (R38, R39). -/
theorem memWrite_cell (addr : Nat) (v : Digit b.W) (s : Sys b) (other : Nat) :
    (memWrite addr v s).cell other = if other = addr then v else s.cell other := by
  by_cases h : other = addr
  · subst h; simp [Sys.cell]
  · simp [Sys.cell, findCell_storeCell_ne _ _ h, h]

@[simp] theorem memWrite_cell_same (addr : Nat) (v : Digit b.W) (s : Sys b) :
    (memWrite addr v s).cell addr = v := by
  simp [memWrite_cell]

theorem memWrite_cell_ne {addr other : Nat} (v : Digit b.W) (s : Sys b) (h : other ≠ addr) :
    (memWrite addr v s).cell other = s.cell other := by
  simp [memWrite_cell, h]

end Sys2Proof.Machine
end

