-- ==== Sys2Proof/Laws/Loops.lean ====
section
/-!
SUPPORT. Everything the two loops of the sequence commands can do (spec/42_ripple_carry_adder.md R89, R90,
spec/43_carry_chain_propagator.md R101): what they leave alone, the digits and the carry they leave behind, the
accesses they make, and that they keep the memory's canonical form.
-/

namespace Sys2Proof.Machine

variable {b : Build}

theorem digitAddr_inj {AW : Nat} (base : BitVec AW) {i j : Nat} : digitAddr base i = digitAddr base j ↔ i = j := by
  simp [digitAddr]

/-! ### Registers -/

theorem prefixLoop_registers (pa pb : BitVec b.AW) (count i : Nat) (carry : Bool) (s : Sys b) :
    ∃ m acc, (prefixLoop pa pb count i carry s).2 = { s with DM := m, accesses := acc } := by
  induction count generalizing i carry s with
  | zero => exact ⟨s.DM, s.accesses, rfl⟩
  | succ count ih =>
    obtain ⟨m, acc, h⟩ := ih (i + 1) (prefixPosition pa pb i carry s).1 (prefixPosition pa pb i carry s).2
    exact ⟨m, acc, h⟩

theorem suffixLoop_registers (pa : BitVec b.AW) (count i : Nat) (carry : Bool) (s : Sys b) :
    ∃ m acc, (suffixLoop pa count i carry s).state = { s with DM := m, accesses := acc } := by
  induction count generalizing i carry s with
  | zero => exact ⟨s.DM, s.accesses, rfl⟩
  | succ count ih =>
    cases carry with
    | false => exact ⟨s.DM, s.accesses, rfl⟩
    | true =>
      obtain ⟨m, acc, h⟩ := ih (i + 1) (suffixPosition pa i true s).1 (suffixPosition pa i true s).2
      exact ⟨m, acc, h⟩

/-! ### Where the suffix loop stops -/

/-- The stop index lies between the start and the top, and a carry remains only at the top (R90, R91, R103). -/
theorem suffixLoop_index (pa : BitVec b.AW) (count i : Nat) (carry : Bool) (s : Sys b) :
    i ≤ (suffixLoop pa count i carry s).index ∧ (suffixLoop pa count i carry s).index ≤ i + count ∧
      ((suffixLoop pa count i carry s).carry = true → (suffixLoop pa count i carry s).index = i + count) := by
  induction count generalizing i carry s with
  | zero => simp [suffixLoop]
  | succ count ih =>
    cases carry with
    | false => simp [suffixLoop]
    | true =>
      have h := ih (i + 1) (suffixPosition pa i true s).1 (suffixPosition pa i true s).2
      simp only [suffixLoop, if_true]
      exact ⟨by omega, by omega, fun hc => by have := h.2.2 hc; omega⟩

/-! ### Digits and carries -/

/-- The prefix loop leaves the digits and the carry of the chain, and no other cell changes (R89, R93), if the two
sequences share no cell in it. -/
theorem prefixLoop_chain (pa pb : BitVec b.AW) (x y : Nat → Digit b.W) (carryIn : Bool) (count i : Nat) (s : Sys b)
    (hx : ∀ j, i ≤ j → j < i + count → s.cell (digitAddr pa j) = x j)
    (hy : ∀ j, i ≤ j → j < i + count → s.cell (digitAddr pb j) = y j)
    (apart : ∀ j k, i ≤ j → j < i + count → i ≤ k → k < i + count → digitAddr pa j ≠ digitAddr pb k) :
    (prefixLoop pa pb count i (chainCarry x y carryIn i) s).1 = chainCarry x y carryIn (i + count) ∧
    (∀ j, i ≤ j → j < i + count →
      (prefixLoop pa pb count i (chainCarry x y carryIn i) s).2.cell (digitAddr pa j) = chainDigit x y carryIn j) ∧
    (∀ addr, (∀ j, i ≤ j → j < i + count → addr ≠ digitAddr pa j) →
      (prefixLoop pa pb count i (chainCarry x y carryIn i) s).2.cell addr = s.cell addr) := by
  induction count generalizing i s with
  | zero => simp [prefixLoop]; intros; omega
  | succ count ih =>
    have hcarry : (prefixPosition pa pb i (chainCarry x y carryIn i) s).1 = chainCarry x y carryIn (i + 1) := by
      simp [prefixPosition, chainCarry, hx i le_rfl (by omega), hy i le_rfl (by omega)]
    have hcell : ∀ addr, (prefixPosition pa pb i (chainCarry x y carryIn i) s).2.cell addr =
        if addr = digitAddr pa i then chainDigit x y carryIn i else s.cell addr := by
      intro addr
      simp [prefixPosition, chainDigit, memWrite_cell, hx i le_rfl (by omega), hy i le_rfl (by omega)]
    obtain ⟨h1, h2, h3⟩ := ih (i + 1) (prefixPosition pa pb i (chainCarry x y carryIn i) s).2
      (fun j hj hj' => by
        rw [hcell, if_neg (by rw [digitAddr_inj]; omega)]; exact hx j (by omega) (by omega))
      (fun j hj hj' => by
        rw [hcell, if_neg (apart i j le_rfl (by omega) (by omega) (by omega)).symm]
        exact hy j (by omega) (by omega))
      (fun j k _ _ _ _ => apart j k (by omega) (by omega) (by omega) (by omega))
    simp only [prefixLoop, hcarry]
    refine ⟨by rw [h1]; congr 1; omega, fun j hj hj' => ?_, fun addr ha => ?_⟩
    · rcases Nat.eq_or_lt_of_le hj with rfl | hj
      · rw [h3 _ (fun k hk _ => by rw [Ne, digitAddr_inj]; omega), hcell, if_pos rfl]
      · exact h2 j (by omega) (by omega)
    · rw [h3 addr (fun k hk hk' => ha k (by omega) (by omega)), hcell, if_neg (ha i le_rfl (by omega))]

/-- From a position at which the carry is false and the addend 0, the chain changes nothing (R94). -/
theorem chain_dead {W : Nat} (hW : 1 ≤ W) (x y : Nat → Digit W) (carryIn : Bool) {i : Nat}
    (hc : chainCarry x y carryIn i = false) (hy : ∀ j, i ≤ j → y j = 0) :
    ∀ j, i ≤ j → chainCarry x y carryIn j = false ∧ chainDigit x y carryIn j = x j := by
  intro j hj
  have hcj : chainCarry x y carryIn j = false := by
    induction j, hj using Nat.le_induction with
    | base => exact hc
    | succ j hj ih => simp only [chainCarry, ih, hy j hj, dadc_zero_false hW]
  exact ⟨hcj, by simp only [chainDigit, hcj, hy j hj, dadc_zero_false hW]⟩

/-- The suffix loop leaves the digits and the carry of the chain with addend 0, at every position up to the top, the
untouched ones included; and no cell changes outside the positions below its stop index (R90, R93, R94). -/
theorem suffixLoop_chain (pa : BitVec b.AW) (x y : Nat → Digit b.W) (carryIn : Bool) (count i : Nat) (s : Sys b)
    (hx : ∀ j, i ≤ j → j < i + count → s.cell (digitAddr pa j) = x j) (hy : ∀ j, i ≤ j → y j = 0) :
    (suffixLoop pa count i (chainCarry x y carryIn i) s).carry = chainCarry x y carryIn (i + count) ∧
    (∀ j, i ≤ j → j < i + count →
      (suffixLoop pa count i (chainCarry x y carryIn i) s).state.cell (digitAddr pa j) = chainDigit x y carryIn j) ∧
    (∀ addr, (∀ j, i ≤ j → j < (suffixLoop pa count i (chainCarry x y carryIn i) s).index → addr ≠ digitAddr pa j) →
      (suffixLoop pa count i (chainCarry x y carryIn i) s).state.cell addr = s.cell addr) := by
  induction count generalizing i s with
  | zero => simp [suffixLoop]; intros; omega
  | succ count ih =>
    cases hc : chainCarry x y carryIn i with
    | false =>
      have hdead := chain_dead b.W_pos x y carryIn hc hy
      refine ⟨?_, fun j hj hj' => ?_, fun addr _ => ?_⟩
      · simp [suffixLoop, (hdead _ (Nat.le_add_right i (count + 1))).1]
      · simp [suffixLoop, (hdead j hj).2, hx j hj hj']
      · simp [suffixLoop]
    | true =>
      have hcarry : (suffixPosition pa i true s).1 = chainCarry x y carryIn (i + 1) := by
        simp [suffixPosition, chainCarry, hc, hy i le_rfl, hx i le_rfl (by omega)]
      have hcell : ∀ addr, (suffixPosition pa i true s).2.cell addr =
          if addr = digitAddr pa i then chainDigit x y carryIn i else s.cell addr := by
        intro addr
        simp [suffixPosition, chainDigit, hc, memWrite_cell, hx i le_rfl (by omega), hy i le_rfl]
      obtain ⟨h1, h2, h3⟩ := ih (i + 1) (suffixPosition pa i true s).2
        (fun j hj hj' => by
          rw [hcell, if_neg (by rw [digitAddr_inj]; omega)]; exact hx j (by omega) (by omega))
        (fun j hj => hy j (by omega))
      have hix := (suffixLoop_index pa count (i + 1) (chainCarry x y carryIn (i + 1)) (suffixPosition pa i true s).2).1
      simp only [suffixLoop, if_true, hcarry]
      refine ⟨by rw [h1]; congr 1; omega, fun j hj hj' => ?_, fun addr ha => ?_⟩
      · rcases Nat.eq_or_lt_of_le hj with rfl | hj
        · rw [h3 _ (fun k hk _ => by rw [Ne, digitAddr_inj]; omega), hcell, if_pos rfl]
        · exact h2 j (by omega) (by omega)
      · rw [h3 addr (fun k hk hk' => ha k (by omega) hk'), hcell, if_neg (ha i le_rfl (by omega))]

/-- A suffix position is reached only while the carry arriving at it is 1 (R90, R101). -/
theorem suffixLoop_carry_alive (pa : BitVec b.AW) (x y : Nat → Digit b.W) (carryIn : Bool) (count i : Nat) (s : Sys b)
    (hx : ∀ j, i ≤ j → j < i + count → s.cell (digitAddr pa j) = x j) (hy : ∀ j, i ≤ j → y j = 0) :
    ∀ j, i ≤ j → j < (suffixLoop pa count i (chainCarry x y carryIn i) s).index → chainCarry x y carryIn j = true := by
  induction count generalizing i s with
  | zero => intro j hj hj'; simp only [suffixLoop] at hj'; omega
  | succ count ih =>
    intro j hj hj'
    cases hc : chainCarry x y carryIn i with
    | false => simp only [hc, suffixLoop, Bool.false_eq_true, if_false] at hj'; omega
    | true =>
      rcases Nat.eq_or_lt_of_le hj with rfl | hj
      · exact hc
      · have hcarry : (suffixPosition pa i true s).1 = chainCarry x y carryIn (i + 1) := by
          simp [suffixPosition, chainCarry, hc, hy i le_rfl, hx i le_rfl (by omega)]
        simp only [hc, suffixLoop, if_true, hcarry] at hj'
        refine ih (i + 1) _ (fun k hk hk' => ?_) (fun k hk => hy k (by omega)) j hj hj'
        rw [← hx k (by omega) (by omega)]
        exact memWrite_cell_ne _ _ (by rw [Ne, digitAddr_inj]; omega)

/-- The carry with which the suffix loop ends is the chain's carry into its stop index (R90, R91, R103). -/
theorem suffixLoop_carry_at_index (pa : BitVec b.AW) (x y : Nat → Digit b.W) (carryIn : Bool) (count i : Nat)
    (s : Sys b) (hx : ∀ j, i ≤ j → j < i + count → s.cell (digitAddr pa j) = x j) (hy : ∀ j, i ≤ j → y j = 0) :
    (suffixLoop pa count i (chainCarry x y carryIn i) s).carry =
      chainCarry x y carryIn (suffixLoop pa count i (chainCarry x y carryIn i) s).index := by
  induction count generalizing i s with
  | zero => rfl
  | succ count ih =>
    cases hc : chainCarry x y carryIn i with
    | false => exact hc.symm
    | true =>
      have hcarry : (suffixPosition pa i true s).1 = chainCarry x y carryIn (i + 1) := by
        simp [suffixPosition, chainCarry, hc, hy i le_rfl, hx i le_rfl (by omega)]
      simp only [suffixLoop, if_true, hcarry]
      refine ih (i + 1) _ (fun k hk hk' => ?_) (fun k hk => hy k (by omega))
      rw [← hx k (by omega) (by omega)]
      exact memWrite_cell_ne _ _ (by rw [Ne, digitAddr_inj]; omega)

/-! ### Accesses -/

/-- The prefix loop accesses every position, in order (R43, R89). -/
theorem prefixLoop_accesses (pa pb : BitVec b.AW) (count i : Nat) (carry : Bool) (s : Sys b) :
    (prefixLoop pa pb count i carry s).2.accesses =
      s.accesses ++ (List.range' i count).flatMap (prefixAccesses pa pb) := by
  induction count generalizing i carry s with
  | zero => simp [prefixLoop]
  | succ count ih =>
    simp only [prefixLoop, ih, List.range'_succ, List.flatMap_cons]
    simp [prefixPosition, prefixAccesses]

/-- The suffix loop accesses the positions below its stop index, in order, and no other (R43, R49, R101). -/
theorem suffixLoop_accesses (pa : BitVec b.AW) (count i : Nat) (carry : Bool) (s : Sys b) :
    (suffixLoop pa count i carry s).state.accesses =
      s.accesses ++
        (List.range' i ((suffixLoop pa count i carry s).index - i)).flatMap (suffixAccesses pa) := by
  induction count generalizing i carry s with
  | zero => simp [suffixLoop]
  | succ count ih =>
    cases carry with
    | false => simp [suffixLoop]
    | true =>
      have hix := (suffixLoop_index pa count (i + 1) (suffixPosition pa i true s).1 (suffixPosition pa i true s).2).1
      simp only [suffixLoop, if_true, ih]
      obtain ⟨k, hk⟩ := Nat.exists_eq_add_of_le hix
      rw [hk, show i + 1 + k - i = k + 1 by omega, Nat.add_sub_cancel_left, List.range'_succ, List.flatMap_cons]
      simp [suffixPosition, suffixAccesses]

/-! ### The canonical form -/

/-- The loops keep the memory canonical and list only cells that exist, as long as they stay inside `DM`. -/
theorem prefixLoop_memory (pa pb : BitVec b.AW) (count i : Nat) (carry : Bool) (s : Sys b) {top : Nat}
    (hin : ∀ j, i ≤ j → j < i + count → digitAddr pa j < top)
    (hwf : s.DM.wf) (hcells : ∀ c ∈ s.DM, c.1 < top) :
    (prefixLoop pa pb count i carry s).2.DM.wf ∧ ∀ c ∈ (prefixLoop pa pb count i carry s).2.DM, c.1 < top := by
  induction count generalizing i carry s with
  | zero => exact ⟨hwf, hcells⟩
  | succ count ih =>
    exact ih (i + 1) _ _ (fun j _ _ => hin j (by omega) (by omega)) (storeCell_wf hwf _ _)
      (storeCell_cells hcells (hin i le_rfl (by omega)) _)

theorem suffixLoop_memory (pa : BitVec b.AW) (count i : Nat) (carry : Bool) (s : Sys b) {top : Nat}
    (hin : ∀ j, i ≤ j → j < i + count → digitAddr pa j < top)
    (hwf : s.DM.wf) (hcells : ∀ c ∈ s.DM, c.1 < top) :
    (suffixLoop pa count i carry s).state.DM.wf ∧ ∀ c ∈ (suffixLoop pa count i carry s).state.DM, c.1 < top := by
  induction count generalizing i carry s with
  | zero => exact ⟨hwf, hcells⟩
  | succ count ih =>
    cases carry with
    | false => exact ⟨hwf, hcells⟩
    | true =>
      exact ih (i + 1) _ _ (fun j _ _ => hin j (by omega) (by omega)) (storeCell_wf hwf _ _)
        (storeCell_cells hcells (hin i le_rfl (by omega)) _)

end Sys2Proof.Machine
end

