-- ==== Sys2Proof/Laws/Commands.lean ====
section
/-!
SUPPORT. What each command can do once it has been issued: when the sequence commands fault, and what their bodies
leave behind (spec/42_ripple_carry_adder.md, spec/43_carry_chain_propagator.md, spec/60_exceptions.md).
-/

namespace Sys2Proof.Machine

variable {b : Build}

/-! ### Checks -/

theorem pastEnd_eq_false {base len : BitVec b.AW} : pastEnd base len = false ↔ InMemory base len := by
  simp [pastEnd]

theorem shareCell_eq_false {pa na pb nb : BitVec b.AW} : shareCell pa na pb nb = false ↔ Apart pa na pb nb := by
  simp only [shareCell, Bool.and_eq_false_iff, decide_eq_false_iff_not, Apart]
  omega

/-- An `RCA` passes its checks exactly when the host has kept its duties (R85, R86, R116). -/
theorem rcaFault_eq_none {s : Sys b} :
    rcaFault s = none ↔
      s.NB.toNat ≤ s.NA.toNat ∧ (InMemory s.PA s.NA ∧ InMemory s.PB s.NB) ∧ Apart s.PA s.NA s.PB s.NB := by
  rw [← pastEnd_eq_false, ← pastEnd_eq_false, ← shareCell_eq_false]
  cases h1 : lengthFails s <;> cases h2 : pastEnd s.PA s.NA <;> cases h3 : pastEnd s.PB s.NB <;>
    cases h4 : shareCell s.PA s.NA s.PB s.NB <;>
    simp only [lengthFails, decide_eq_true_eq, decide_eq_false_iff_not] at h1 <;>
    (simp [rcaFault, lengthFails, h1, h2, h3, h4]; try omega)

/-- A `CCP` passes its checks exactly when the host has kept its duties (R99, R116). -/
theorem ccpFault_eq_none {s : Sys b} :
    ccpFault s = none ↔ s.NB.toNat ≤ s.NA.toNat ∧ InMemory s.PA s.NA := by
  rw [← pastEnd_eq_false]
  cases h1 : lengthFails s <;> cases h2 : pastEnd s.PA s.NA <;>
    simp only [lengthFails, decide_eq_true_eq, decide_eq_false_iff_not] at h1 <;>
    (simp [ccpFault, lengthFails, h1, h2]; try omega)

theorem checked_cases (fault : Option FaultKind) (body : Sys b → Sys b) (s : Sys b) :
    (∃ f, fault = some f ∧ checked fault body s = raise f s) ∨ (fault = none ∧ checked fault body s = body s) := by
  cases fault <;> simp [checked]

theorem exec_rca_of_ready {s : Sys b} (h : RcaReady s) : exec .rca ⟨b, s⟩ = .next ⟨b, rcaBody s⟩ := by
  have hf : rcaFault s = none := rcaFault_eq_none.2 ⟨h.length, ⟨h.a_in, h.b_in⟩, h.apart⟩
  simp [exec, execRca, issue_of_running h.running, rcaCommand, checked, hf]

theorem exec_ccp_of_ready {s : Sys b} (h : CcpReady s) : exec .ccp ⟨b, s⟩ = .next ⟨b, ccpBody s⟩ := by
  have hf : ccpFault s = none := ccpFault_eq_none.2 ⟨h.length, h.a_in⟩
  simp [exec, execCcp, issue_of_running h.running, ccpCommand, checked, hf]

/-! ### Bodies: registers and accesses -/

theorem finish_registers {e : LoopEnd b} {s : Sys b} {m : Memory b.W} {acc : List Access}
    (h : e.state = { s with DM := m, accesses := acc }) :
    finish e = { s with CF := e.carry, IDX := BitVec.ofNat b.AW e.index, DM := m, accesses := acc } := by
  simp only [finish, h]

/-- The bodies write `CF`, `IDX`, `DM` and the record of accesses, and nothing else (R95). -/
theorem rcaBody_registers (s : Sys b) :
    ∃ c i m acc, rcaBody s = { s with CF := c, IDX := i, DM := m, accesses := acc } := by
  obtain ⟨m, acc, h⟩ := prefixLoop_registers s.PA s.PB s.NB.toNat 0 false s
  obtain ⟨m', acc', h'⟩ := suffixLoop_registers s.PA (s.NA.toNat - s.NB.toNat) s.NB.toNat
    (prefixLoop s.PA s.PB s.NB.toNat 0 false s).1 (prefixLoop s.PA s.PB s.NB.toNat 0 false s).2
  exact ⟨_, _, m', acc', finish_registers (s := s) (h'.trans (by rw [h]))⟩

/-- The same of `CCP` (R105). -/
theorem ccpBody_registers (s : Sys b) :
    ∃ c i m acc, ccpBody s = { s with CF := c, IDX := i, DM := m, accesses := acc } := by
  obtain ⟨m, acc, h⟩ := suffixLoop_registers s.PA (s.NA.toNat - s.NB.toNat) s.NB.toNat s.CF s
  exact ⟨_, _, m, acc, finish_registers h⟩

/-- A stop index up to a length fits in an `AW`-bit register: `IDX` "never wraps" (R19). -/
theorem index_toNat {AW i : Nat} {len : BitVec AW} (h : i ≤ len.toNat) : (BitVec.ofNat AW i).toNat = i := by
  rw [BitVec.toNat_ofNat]
  exact Nat.mod_eq_of_lt (lt_of_le_of_lt h len.isLt)

end Sys2Proof.Machine
end

