-- ==== Sys2Proof/Laws/PerInstr.lean ====
section
/-!
SUPPORT. Statements about every instruction as syntax, one lemma per constructor.
-/

namespace Sys2Proof.Laws

/-- The encoding of an instruction addresses a register of the port, is a write exactly when it carries data, and its
data is as wide as that register (spec/30_encoding.md R51, R53). -/
def EncodingFitsThePort.Statement (i : Instr) : Prop :=
  ∀ b : Build,
    ((encode b i).we = true ↔ (encode b i).wdata.isSome = true) ∧
    ∀ d, (encode b i).wdata = some d → d.width = (Reg.ofIndex (encode b i).idx).width b

theorem ofIndex_index (r : Reg) : Reg.ofIndex r.index = r := by
  cases r with
  | reserved n => fin_cases n <;> rfl
  | _ => rfl

theorem EncodingFitsThePort.of_write (b : Build) (r : Reg) (v : Nat) :
    ((writeTransaction b r v).we = true ↔ (writeTransaction b r v).wdata.isSome = true) ∧
    ∀ d, (writeTransaction b r v).wdata = some d →
      d.width = (Reg.ofIndex (writeTransaction b r v).idx).width b := by
  refine ⟨by simp [writeTransaction], fun d hd => ?_⟩
  simp only [writeTransaction, Option.some.injEq] at hd
  subst hd
  simp [writeTransaction, ofIndex_index]

theorem EncodingFitsThePort.dadc : Statement .dadc := fun b => of_write b .CMD _

theorem EncodingFitsThePort.dmac : Statement .dmac := fun b => of_write b .CMD _

theorem EncodingFitsThePort.rca : Statement .rca := fun b => of_write b .CMD _

theorem EncodingFitsThePort.ccp : Statement .ccp := fun b => of_write b .CMD _

theorem EncodingFitsThePort.wr (reg : Reg) (value : Nat) : Statement (.wr reg value) := fun b => of_write b reg value

theorem EncodingFitsThePort.rd (reg : Reg) : Statement (.rd reg) := fun b => by simp [encode]

end Sys2Proof.Laws
end

