-- ==== Sys2Proof/Tests/Slice0.lean ====
section
/-!
SUPPORT. Tests, their expected results from spec/95_test_vectors.md and from the encodings of spec/30_encoding.md; and
for every statement of Certificates/Slice0/Obligations.lean that has hypotheses, a concrete case that meets them.
-/

namespace Sys2Proof.Tests

open Sys2Proof.Machine

/-! ### Helpers -/

/-- What `f` says of the next state, if there is one. -/
def ofNext {α : Type} (f : State → α) : Host.Outcome State Fault Refusal → Option α
  | .next s => some (f s)
  | .fault _ => none
  | .refused _ => none

/-- The name of a refusal, if the outcome is one. -/
def ofRefusal : Host.Outcome State Fault Refusal → Option Refusal
  | .refused r => some r
  | .next _ => none
  | .fault _ => none

/-- A block with two sequences described, `cells` in `DM`, and otherwise as after reset. -/
def block (b : Build) (pa na pb nb : Nat) (cells : Memory b.W) : Sys b :=
  { (State.resetOf b).sys with
    PA := BitVec.ofNat _ pa, NA := BitVec.ofNat _ na, PB := BitVec.ofNat _ pb, NB := BitVec.ofNat _ nb, DM := cells }

/-- The same with a carry in `CF`. -/
def withCarry {b : Build} (s : Sys b) : Sys b := { s with CF := true }

/-- The same with the code of a fault in `STATUS`. -/
def haltedBy {b : Build} (f : FaultKind) (s : Sys b) : Sys b := raise f s

/-- A block with digits in its four digit registers, and otherwise as after reset. -/
def digits (b : Build) (a b' c k : Nat) : Sys b :=
  { (State.resetOf b).sys with
    A := BitVec.ofNat _ a, B := BitVec.ofNat _ b', C := BitVec.ofNat _ c, K := BitVec.ofNat _ k }

/-- A `W = 1` block of two cells with one-bit addresses: the smallest build with a sequence of length 1. -/
def build1 : Build := { W := 1, AW := 1, memDigits := 2 }

/-- The cells `addr`, `addr + 1`, … with these digits. -/
def cellsAt (W addr : Nat) : List Nat → Memory W
  | [] => []
  | d :: rest => (addr, BitVec.ofNat W d) :: cellsAt W (addr + 1) rest

/-- The digits of cells, as numbers. -/
def cellsOf (addrs : List Nat) (s : State) : List Nat := addrs.map fun a => (s.sys.cell a).toNat

/-! ### Well-formedness: one ill-formed term for each check -/

/-- "A carry greater than 1 has no encoding" (R53). -/
theorem test_wf_refuses_carry_two : Instr.wellFormed Config.build32 (.wr .CF 2) = false := by decide

theorem test_wf_refuses_wide_digit : Instr.wellFormed Config.build32 (.wr .A 0x100000000) = false := by decide

/-- A command word written to `CMD` is spelled by the command's mnemonic (R61). -/
theorem test_wf_refuses_second_spelling : Instr.wellFormed Config.build32 (.wr .CMD 0x04) = false := by decide

theorem test_wf_accepts_illegal_command_word : Instr.wellFormed Config.build32 (.wr .CMD 0x05) = true := by decide

/-! ### Decoding, bit by bit: `we`, `idx`, `wdata` (R51 to R57, R61) -/

theorem test_decode_dadc :
    decode Config.build32 ⟨true, 0b1011#4, some ⟨8, 0b00000001#8⟩⟩ = .ok .dadc := by decide

theorem test_decode_ccp :
    decode Config.build64 ⟨true, 0b1011#4, some ⟨8, 0b00000100#8⟩⟩ = .ok .ccp := by decide

/-- `0x00` is no command and no no-op (R58). -/
theorem test_decode_zero_word :
    decode Config.build32 ⟨true, 0b1011#4, some ⟨8, 0b00000000#8⟩⟩ = .ok (.wr .CMD 0) := by decide

/-- `1.8.00000003` (R51, R52). -/
theorem test_decode_wr_nb :
    decode Config.build32 ⟨true, 0b1000#4, some ⟨32, 3#32⟩⟩ = .ok (.wr .NB 3) := by decide

/-- `0.9` (R52). -/
theorem test_decode_rd_idx : decode Config.build32 ⟨false, 0b1001#4, none⟩ = .ok (.rd .IDX) := by decide

/-- An 8-bit value for the 1-bit `CF` (R53). -/
theorem test_decode_refuses_wrong_width :
    decode Config.build32 ⟨true, 0b0100#4, some ⟨8, 1#8⟩⟩ = .error .wrongWidth := by decide

theorem test_decode_refuses_missing_data :
    decode Config.build32 ⟨true, 0b0000#4, none⟩ = .error .missingData := by decide

theorem test_decode_refuses_data_on_read :
    decode Config.build32 ⟨false, 0b0000#4, some ⟨32, 0#32⟩⟩ = .error .dataOnRead := by decide

/-- The rows of the opcode table, as the table numbers their bits. -/
theorem test_table_words :
    [0x01, 0x02, 0x03, 0x04, 0x10, 0x00].map (decodeTableWord 8) =
      [some .dadc, some .dmac, some .rca, some .ccp, some (.wr .A 0), some (.rd .A)] := by decide

/-- Each of them runs as the first transaction after reset: an `RCA` and a `CCP` of empty sequences complete, and the
read returns the reset value of `A`. -/
theorem test_table_words_step :
    [0x01, 0x02, 0x03, 0x04, 0x10, 0x00].map
        (fun w => ofNext (fun t => (t.sys.pending.length, t.sys.STATUS, t.sys.returned))
          (step (State.reset.withFetchWord 8 w))) =
      [some (0, 0#8, []), some (0, 0#8, []), some (0, 0#8, []), some (0, 0#8, []), some (0, 0#8, []),
        some (0, 0#8, [⟨32, 0#32⟩])] := by decide

/-! ### `DADC` and `DMAC` (95, parts 1, 2.1, 2.2) -/

/-- Source scenario S5. -/
theorem test_dadc_largest :
    ofNext (fun t => (t.sys.A.toNat, t.sys.CF))
      (exec .dadc ⟨Config.build32, withCarry (digits _ 0xFFFFFFFF 0xFFFFFFFF 0 0)⟩) =
      some (0xFFFFFFFF, true) := by decide

/-- "The last row shows that a `W = 64` block does not carry at bit 32." -/
theorem test_dadc_no_carry_at_bit_32 :
    ofNext (fun t => (t.sys.A.toNat, t.sys.CF))
      (exec .dadc ⟨Config.build64, digits _ 0x00000000FFFFFFFF 0x0000000000000001 0 0⟩) =
      some (0x0000000100000000, false) := by decide

/-- Source scenario S6. -/
theorem test_dmac_largest_product :
    ofNext (fun t => (t.sys.A.toNat, t.sys.K.toNat, t.sys.CF))
      (exec .dmac ⟨Config.build32, withCarry (digits _ 0 0xFFFFFFFF 0xFFFFFFFF 0)⟩) =
      some (0x00000001, 0xFFFFFFFE, true) := by decide

/-- Program P6 at `W = 64`. -/
theorem test_dmac_64 :
    ofNext (fun t => (t.sys.A.toNat, t.sys.K.toNat))
      (exec .dmac ⟨Config.build64,
        digits _ 0x0123456789ABCDEF 0xFEDCBA9876543210 0x0F1E2D3C4B5A6978 0x8877665544332211⟩) =
      some (0x24477BC1177EF780, 0x0F0CF9D5A05A029A) := by decide

/-! ### `RCA` and `CCP` (programs P1, P3, P4; R104) -/

/-- `DM` of program P1: source scenario S4. -/
def scenarioS4 : Sys Config.build32 :=
  block _ 0x10 2 0x20 2 (cellsAt 32 0x10 [0xFFFFFFFF, 0] ++ cellsAt 32 0x20 [1, 0xFFFFFFFF])

theorem test_rca_s4 :
    ofNext (fun t => (cellsOf [0x10, 0x11, 0x20, 0x21] t, t.sys.CF, t.sys.IDX.toNat, t.sys.STATUS))
      (exec .rca ⟨_, scenarioS4⟩) = some ([0, 0, 1, 0xFFFFFFFF], true, 2, 0#8) := by decide

/-- Program P4: the stale carry is ignored, the suffix stops at 3, and the top digit is not accessed. -/
def programP4 : Sys Config.build32 :=
  withCarry (block _ 0x80 4 0x90 2
    (cellsAt 32 0x80 [0xFFFFFFFF, 1, 0xDEADBEEF, 0xCAFEF00D] ++ cellsAt 32 0x90 [1, 0xFFFFFFFE]))

theorem test_rca_p4 :
    ofNext (fun t => (cellsOf [0x80, 0x81, 0x82, 0x83] t, t.sys.CF, t.sys.IDX.toNat, t.sys.accesses))
      (exec .rca ⟨_, programP4⟩) =
      some ([0, 0, 0xDEADBEF0, 0xCAFEF00D], false, 3,
        [.read 0x80, .read 0x90, .write 0x80, .read 0x81, .read 0x91, .write 0x81, .read 0x82, .write 0x82]) := by
  decide

/-- Program P3 from its `CCP`. -/
def programP3 : Sys Config.build32 :=
  withCarry (block _ 0 4 0 1 (cellsAt 32 0 [0, 0xFFFFFFFF, 5, 9]))

theorem test_ccp_p3 :
    ofNext (fun t => (cellsOf [0, 1, 2, 3] t, t.sys.CF, t.sys.IDX.toNat, t.sys.accesses)) (exec .ccp ⟨_, programP3⟩) =
      some ([0, 0, 6, 9], false, 3, [.read 1, .write 1, .read 2, .write 2]) := by decide

/-- A run of `MAX` up to the top of memory: zeros, and the carry remains (R104). -/
def runToTop : Sys Config.build32 := withCarry (block _ 0xFE 2 0 0 (cellsAt 32 0xFE [0xFFFFFFFF, 0xFFFFFFFF]))

theorem test_ccp_run_to_top :
    ofNext (fun t => (cellsOf [0xFE, 0xFF] t, t.sys.CF, t.sys.IDX.toNat)) (exec .ccp ⟨_, runToTop⟩) =
      some ([0, 0], true, 2) := by decide

/-! ### `WR` and `RD` -/

/-- `WR CMD, 0x05` raises `ILLEGAL` and changes nothing else (program P6). -/
theorem test_wr_illegal_command :
    ofNext (fun t => (t.sys.STATUS, t.sys.A.toNat, t.sys.faultO))
      (exec (.wr .CMD 0x05) ⟨Config.build64, digits _ 7 0 0 0⟩) = some (0x04#8, 7, 1#1) := by decide

/-- `WR` works while the block is halted (R114). -/
theorem test_wr_while_halted :
    ofNext (fun t => (t.sys.NA.toNat, t.sys.STATUS))
      (exec (.wr .NA 0xFFFFFFFF) ⟨_, haltedBy .lengthFault scenarioS4⟩) = some (0xFFFFFFFF, 0x01#8) := by decide

theorem test_rd_status_while_halted :
    ofNext (fun t => t.sys.returned) (exec (.rd .STATUS) ⟨_, haltedBy .aliasFault scenarioS4⟩) =
      some [⟨8, 0x03#8⟩] := by decide

theorem test_rd_cf : ofNext (fun t => t.sys.returned) (exec (.rd .CF) ⟨_, programP3⟩) = some [⟨1, 1#1⟩] := by decide

/-! ### Faults -/

/-- Program P5: `LENGTH`, `a` untouched, `CF` and `IDX` not written. -/
def programP5 : Sys Config.build32 := block _ 0x10 1 0x20 2 (cellsAt 32 0x10 [7] ++ cellsAt 32 0x20 [1, 2])

theorem test_rca_length_fault :
    ofNext (fun t => (t.sys.STATUS, cellsOf [0x10] t, t.sys.accesses)) (exec .rca ⟨_, programP5⟩) =
      some (0x01#8, [7], []) := by decide

/-- A sequence that ends exactly at `MEMDIGITS` is in range; one digit more is not (R119). -/
theorem test_ccp_range_edge :
    (ofNext (fun t => t.sys.STATUS) (exec .ccp ⟨Config.build32, block _ 0xFE 2 0 2 []⟩),
      ofNext (fun t => t.sys.STATUS) (exec .ccp ⟨Config.build32, block _ 0xFE 3 0 2 []⟩)) =
      (some 0x00#8, some 0x02#8) := by decide

/-- Sequences that touch end to end do not alias; ones that share a single cell do (R120). -/
theorem test_rca_alias_edge :
    (ofNext (fun t => t.sys.STATUS)
        (exec .rca ⟨_, block Config.build32 0x10 2 0x12 1 (cellsAt 32 0x10 [0, 0, 0])⟩),
      ofNext (fun t => t.sys.STATUS)
        (exec .rca ⟨_, block Config.build32 0x10 2 0x11 1 (cellsAt 32 0x10 [0, 0, 0])⟩)) =
      (some 0x00#8, some 0x03#8) := by decide

/-! ### The host's other lines -/

theorem test_mw_then_mr :
    ofNext (fun t => (cellsOf [0xFF] t, t.sys.accesses))
      (step ⟨Config.build32, { scenarioS4 with pending := [.mw 0xFF 5#32] }⟩) = some ([5], []) := by decide

theorem test_mr_outside :
    ofRefusal (step ⟨Config.build32, { scenarioS4 with pending := [.mr 0x100] }⟩) = some .noSuchCell := by decide

/-- `DM` survives a reset, and the fault does not (program P5). -/
theorem test_reset :
    ofNext (fun t => (t.sys.STATUS, t.sys.NA.toNat, cellsOf [0x10] t))
      (step ⟨_, { haltedBy .lengthFault programP5 with pending := [.reset] }⟩) = some (0x00#8, 0, [7]) := by decide

/-! ### Witnesses: for each statement with hypotheses, a case that meets all of them -/

/-! #### Encoding and the step -/

/-- The largest value of a register, the smallest, and an illegal command word. -/
theorem witness_DecodeOfEncode :
    Instr.wellFormed Config.build32 (.wr .A 0xFFFFFFFF) = true ∧ Instr.wellFormed Config.build32 (.wr .CF 1) = true ∧
    Instr.wellFormed Config.build32 (.wr .CMD 0xFF) = true ∧ Instr.wellFormed build1 (.wr .PA 1) = true ∧
    Instr.wellFormed Config.build32 (.wr (.reserved 3) 0xFF) = true := by decide

theorem witness_EncodeOfDecode :
    decode Config.build32 ⟨true, 0xF#4, some ⟨8, 0xFF#8⟩⟩ = .ok (.wr (.reserved 3) 0xFF) := by decide

/-- `scenarioS4` with these lines of the host to come. -/
def withLines (lines : List (HostLine 32)) : Sys Config.build32 := { scenarioS4 with pending := lines }

theorem witness_StepRunsDecodedInstruction :
    (withLines [.port ⟨true, 0xB#4, some ⟨8, 0x03#8⟩⟩, .mr 0x10]).pending =
      .port ⟨true, 0xB#4, some ⟨8, 0x03#8⟩⟩ :: [.mr 0x10] ∧
    decode Config.build32 ⟨true, 0xB#4, some ⟨8, 0x03#8⟩⟩ = .ok .rca := by decide

theorem witness_StepRefusesUndecodableTransaction :
    (withLines [.port ⟨true, 0x4#4, some ⟨2, 2#2⟩⟩]).pending = .port ⟨true, 0x4#4, some ⟨2, 2#2⟩⟩ :: [] ∧
    decode Config.build32 ⟨true, 0x4#4, some ⟨2, 2#2⟩⟩ = .error .wrongWidth := by decide

theorem witness_IdleBlockDoesNothing : scenarioS4.pending = [] := by decide

theorem witness_StepRunsFetchWord :
    decode State.reset.build (tableTransaction State.reset.build 8 0x04) = .ok .ccp := by decide

/-! #### The digit commands -/

theorem witness_DadcAddsExactly : (withCarry (digits Config.build32 0xFFFFFFFF 0xFFFFFFFF 0 0)).halted = false := by
  decide

theorem witness_DadcWritesOnlyAAndCF : (haltedBy .illegalFault (digits Config.build32 1 2 3 4)).halted = true := by
  decide

theorem witness_DadcFormsAgree : 1 ≤ Config.build32.W ∧ 1 ≤ build1.W := by decide

theorem witness_DadcFirstOverflowLeavesRoom :
    1 ≤ 1 ∧ (addc (1 : Digit 1) 1).2 = true ∧ (addc (0xFFFFFFFF : Digit 32) 0xFFFFFFFF).2 = true := by decide

theorem witness_DadcCornerCases : 1 ≤ build1.W := by decide

theorem witness_DmacMultiplyAddsExactly :
    (digits Config.build32 0xFFFFFFFF 0xFFFFFFFF 0xFFFFFFFF 0xFFFFFFFF).halted = false := by decide

theorem witness_DmacWritesOnlyAAndK : (haltedBy .rangeFault (digits Config.build32 1 2 3 4)).halted = true := by decide

theorem witness_DmacTwoLimbFormAgrees : 1 ≤ build1.W := by decide

theorem witness_DmacCornerCases : 1 ≤ 1 ∧ 2 ≤ Config.build32.W := by decide

/-! #### The sequence commands -/

/-- Equal lengths, the whole of both sequences used. -/
theorem ready_scenarioS4 : RcaReady scenarioS4 := ⟨by decide, by decide, by decide, by decide, by decide⟩

/-- `m < n`, and the suffix stops below the top. -/
theorem ready_programP4 : RcaReady programP4 := ⟨by decide, by decide, by decide, by decide, by decide⟩

/-- Both sequences at the edges of the smallest memory, next to each other, the carry out of the top. -/
def edgeToEdge : Sys build1 := block _ 0 1 1 1 [(0, 1#1), (1, 1#1)]

theorem ready_edgeToEdge : RcaReady edgeToEdge := ⟨by decide, by decide, by decide, by decide, by decide⟩

/-- Two empty sequences, at addresses that name no cell. -/
def emptySequences : Sys Config.build32 := block _ 0xFFFFFFFF 0 0xFFFFFFFF 0 []

theorem ready_emptySequences : RcaReady emptySequences := ⟨by decide, by decide, by decide, by decide, by decide⟩

theorem witness_RcaAddsSequences : RcaReady scenarioS4 ∧ RcaReady programP4 ∧ RcaReady edgeToEdge ∧
    RcaReady emptySequences := ⟨ready_scenarioS4, ready_programP4, ready_edgeToEdge, ready_emptySequences⟩

theorem witness_RcaIsDigitByDigitAddition : RcaReady programP4 := ready_programP4

/-- A stop below the top, and an overflow. -/
theorem witness_RcaReportsStopIndexAndOverflow :
    RcaReady programP4 ∧ ofNext (fun t => t.sys.IDX.toNat < 4) (exec .rca ⟨_, programP4⟩) = some True ∧
    RcaReady scenarioS4 ∧ ofNext (fun t => t.sys.CF) (exec .rca ⟨_, scenarioS4⟩) = some true :=
  ⟨ready_programP4, congrArg some (eq_true (by decide)), ready_scenarioS4, by decide⟩

theorem witness_RcaFrame : RcaReady programP4 := ready_programP4

theorem witness_RcaAccessesInOrder : RcaReady programP4 := ready_programP4

theorem witness_RcaIgnoresCarryIn : RcaReady programP4 ∧ programP4.CF = true := ⟨ready_programP4, by decide⟩

theorem witness_RcaEdgeCases : RcaReady emptySequences ∧ emptySequences.NB.toNat = 0 ∧
    RcaReady scenarioS4 ∧ scenarioS4.NB.toNat = scenarioS4.NA.toNat :=
  ⟨ready_emptySequences, by decide, ready_scenarioS4, by decide⟩

theorem ready_programP3 : CcpReady programP3 := ⟨by decide, by decide, by decide⟩

theorem ready_runToTop : CcpReady runToTop := ⟨by decide, by decide, by decide⟩

theorem witness_CcpAddsTheCarry : CcpReady programP3 ∧ CcpReady runToTop := ⟨ready_programP3, ready_runToTop⟩

/-- `start = n`, with a carry. -/
def startAtTop : Sys Config.build32 := withCarry (block _ 0xFE 2 0 2 (cellsAt 32 0xFE [1, 2]))

/-- No carry; a run that ends at 2; a run up to the top; an empty run at the top. -/
theorem witness_CcpCarriesThroughTheRunOfMax :
    (CcpReady scenarioS4 ∧ scenarioS4.CF = false) ∧
    (CcpReady programP3 ∧ programP3.CF = true ∧ programP3.NB.toNat ≤ 2 ∧ 2 < programP3.NA.toNat ∧
      (∀ i, programP3.NB.toNat ≤ i → i < 2 → programP3.cell (programP3.PA.toNat + i) = maxDigit Config.build32.W) ∧
      programP3.cell (programP3.PA.toNat + 2) ≠ maxDigit Config.build32.W) ∧
    (CcpReady runToTop ∧ runToTop.CF = true ∧
      ∀ i, runToTop.NB.toNat ≤ i → i < runToTop.NA.toNat →
        runToTop.cell (runToTop.PA.toNat + i) = maxDigit Config.build32.W) ∧
    (CcpReady startAtTop ∧ startAtTop.CF = true ∧ startAtTop.NB = startAtTop.NA) := by
  refine ⟨⟨⟨by decide, by decide, by decide⟩, by decide⟩,
    ⟨ready_programP3, by decide, by decide, by decide, fun i h h' => ?_, by decide⟩,
    ⟨ready_runToTop, by decide, fun i _ h' => ?_⟩, ⟨⟨by decide, by decide, by decide⟩, by decide, by decide⟩⟩
  · have h : 1 ≤ i := h
    obtain rfl : i = 1 := by omega
    decide
  · have h' : i < 2 := h'
    obtain rfl | rfl : i = 0 ∨ i = 1 := by omega
    all_goals decide

theorem witness_CcpFrame : CcpReady programP3 ∧ CcpReady startAtTop :=
  ⟨ready_programP3, by decide, by decide, by decide⟩

theorem witness_CcpAccessesInOrder : CcpReady programP3 := ready_programP3

theorem witness_CcpIgnoresOtherRegisters :
    ∃ t : Sys Config.build32, exec .ccp ⟨_, programP3⟩ = .next ⟨_, t⟩ := ⟨_, rfl⟩

theorem witness_RcaIsPrefixThenCcp : RcaReady programP4 := ready_programP4

/-! #### Faults -/

/-- `NB = NA + 1`, empty `a` (R92, R104). -/
theorem witness_LengthFault : (block Config.build32 0 0 0 1 []).halted = false ∧
    (block Config.build32 0 0 0 1 []).NA.toNat < (block Config.build32 0 0 0 1 []).NB.toNat := by decide

/-- `a` past the end by one digit, with `b` empty; then `b` past the end by one digit, with `a` inside. -/
theorem witness_RangeFault :
    ((block Config.build32 0xFE 3 0 0 []).halted = false ∧
      (block Config.build32 0xFE 3 0 0 []).NB.toNat ≤ (block Config.build32 0xFE 3 0 0 []).NA.toNat ∧
      0 < (block Config.build32 0xFE 3 0 0 []).NA.toNat ∧
      Config.build32.memDigits < (block Config.build32 0xFE 3 0 0 []).PA.toNat +
        (block Config.build32 0xFE 3 0 0 []).NA.toNat) ∧
    ((block Config.build32 0 1 0x100 1 []).halted = false ∧
      (block Config.build32 0 1 0x100 1 []).NB.toNat ≤ (block Config.build32 0 1 0x100 1 []).NA.toNat ∧
      0 < (block Config.build32 0 1 0x100 1 []).NB.toNat ∧
      Config.build32.memDigits < (block Config.build32 0 1 0x100 1 []).PB.toNat +
        (block Config.build32 0 1 0x100 1 []).NB.toNat) := by decide

/-- Sequences that share the one cell `0x11`. -/
def oneSharedCell : Sys Config.build32 := block _ 0x10 2 0x11 1 []

theorem witness_AliasFault : oneSharedCell.halted = false ∧ oneSharedCell.NB.toNat ≤ oneSharedCell.NA.toNat ∧
    InMemory oneSharedCell.PA oneSharedCell.NA ∧ InMemory oneSharedCell.PB oneSharedCell.NB ∧
    (0 < oneSharedCell.NA.toNat ∧ 0 < oneSharedCell.NB.toNat ∧
      oneSharedCell.PA.toNat < oneSharedCell.PB.toNat + oneSharedCell.NB.toNat ∧
      oneSharedCell.PB.toNat < oneSharedCell.PA.toNat + oneSharedCell.NA.toNat) := by decide

/-- A halted block; a running one, with the words on both sides of the four commands. -/
theorem witness_CmdWriteIssuesCommand :
    (0x01 < 2 ^ 8 ∧ (haltedBy .lengthFault scenarioS4).halted = true) ∧
    scenarioS4.halted = false ∧ ∀ v ∈ [0x00, 0x01, 0x02, 0x03, 0x04, 0x05, 0xFF], v < 2 ^ 8 := by decide

theorem witness_FaultsArePrecise :
    ∃ t : Sys Config.build32, exec .rca ⟨_, programP5⟩ = .next ⟨_, t⟩ ∧
    programP5.halted = false ∧ t.halted = true := ⟨_, rfl, by decide, by decide⟩

theorem witness_HaltedBlockIgnoresCommands : (haltedBy .aliasFault scenarioS4).halted = true ∧ 0xFF < 2 ^ 8 := by
  decide

/-- A halted block whose host writes a register, and one whose host resets it. -/
theorem witness_OnlyResetClearsAFault :
    (∃ t, step ⟨_, haltedBy .lengthFault (withLines [.mr 0x10])⟩ = .next t ∧
      (haltedBy .lengthFault (withLines [.mr 0x10])).halted = true ∧
      ∀ rest, (haltedBy .lengthFault (withLines [.mr 0x10])).pending ≠ .reset :: rest) ∧
    (∃ t, step ⟨_, haltedBy .lengthFault (withLines [.reset])⟩ = .next t ∧
      (haltedBy .lengthFault (withLines [.reset])).halted = true ∧
      (haltedBy .lengthFault (withLines [.reset])).pending = .reset :: []) :=
  ⟨⟨_, rfl, by decide, fun _ h => by injection h with h; cases h⟩, ⟨_, rfl, by decide, by decide⟩⟩

/-- Each of the four with a carry out. -/
theorem witness_OverflowIsNoFault :
    (∃ t : Sys build1, exec .dadc ⟨_, digits build1 1 1 0 0⟩ = .next ⟨_, t⟩ ∧ t.CF = true) ∧
    (∃ t : Sys build1, exec .dmac ⟨_, digits build1 1 1 1 1⟩ = .next ⟨_, t⟩ ∧ t.K.toNat = 1) ∧
    (RcaReady edgeToEdge ∧ ∃ t : Sys build1, exec .rca ⟨_, edgeToEdge⟩ = .next ⟨_, t⟩ ∧ t.CF = true) ∧
    (CcpReady runToTop ∧ ∃ t : Sys Config.build32, exec .ccp ⟨_, runToTop⟩ = .next ⟨_, t⟩ ∧ t.CF = true) :=
  ⟨⟨_, rfl, by decide⟩, ⟨_, rfl, by decide⟩, ⟨ready_edgeToEdge, _, rfl, by decide⟩, ⟨ready_runToTop, _, rfl, by decide⟩⟩

/-! #### Transactions, host lines, the whole machine -/

/-- The largest value of each width. -/
theorem witness_WrWritesItsRegister :
    0xFFFFFFFF < 2 ^ Config.build32.W ∧ 1 < 2 ^ 1 ∧ 0xFFFFFFFF < 2 ^ Config.build32.AW ∧ 1 < 2 ^ build1.AW := by decide

theorem witness_AccessesThatDoNothing : 0xFFFFFFFF < 2 ^ Config.build32.AW ∧ 0xFF < 2 ^ 8 := by decide

theorem witness_TooWideWrIsRefused :
    2 ^ Reg.width Config.build32 .CF ≤ 2 ∧ 2 ^ Reg.width Config.build32 .A ≤ 0x100000000 ∧
    2 ^ Reg.width Config.build32 .CMD ≤ 0x100 := by decide

/-- The last cell, and the first address that names none. -/
theorem witness_MwWritesOneCell :
    ((withLines [.mw 0xFF 5#32]).pending = .mw 0xFF 5#32 :: [] ∧ 0xFF < Config.build32.memDigits) ∧
    ((withLines [.mw 0x100 5#32]).pending = .mw 0x100 5#32 :: [] ∧ Config.build32.memDigits ≤ 0x100) := by decide

theorem witness_MrReturnsTheCell :
    ((withLines [.mr 0xFF]).pending = .mr 0xFF :: [] ∧ 0xFF < Config.build32.memDigits) ∧
    ((withLines [.mr 0x100]).pending = .mr 0x100 :: [] ∧ Config.build32.memDigits ≤ 0x100) := by decide

/-- Another cell, and the same cell. -/
theorem witness_MrAfterMwReturnsTheValue :
    0xFF < Config.build32.memDigits ∧ 0x10 < Config.build32.memDigits ∧
    (withLines [.mw 0xFF 5#32, .mr 0xFF, .mr 0x10]).pending = .mw 0xFF 5#32 :: .mr 0xFF :: .mr 0x10 :: [] ∧
    (withLines [.mw 0xFF 5#32, .mr 0xFF, .mr 0xFF]).pending = .mw 0xFF 5#32 :: .mr 0xFF :: .mr 0xFF :: [] := by decide

theorem witness_ResetClearsRegistersAndKeepsMemory :
    (haltedBy .rangeFault (withLines [.reset])).pending = .reset :: [] := by decide

/-- A host's write of the last cell. -/
theorem witness_StepKeepsTheInvariant :
    Inv ⟨_, withLines [.mw 0xFF 5#32]⟩ ∧ ∃ t, step ⟨_, withLines [.mw 0xFF 5#32]⟩ = .next t :=
  ⟨⟨by decide, by decide, by decide⟩, _, rfl⟩

theorem witness_StepKeepsTheBuild : ∃ t, step ⟨_, withLines [.reset]⟩ = .next t := ⟨_, rfl⟩

theorem witness_CommandsWriteOnlyTheirSequence :
    ∃ t : Sys Config.build32, exec Command.rca.instr ⟨_, scenarioS4⟩ = .next ⟨_, t⟩ := ⟨_, rfl⟩

/-- Each of the four kinds of line. -/
theorem witness_PresentableLinesComplete :
    ((withLines [.reset]).pending = .reset :: [] ∧ lineOk Config.build32 .reset = true) ∧
    lineOk Config.build32 (.port ⟨true, 0x4#4, some ⟨1, 1#1⟩⟩) = true ∧
    lineOk Config.build32 (.port ⟨false, 0xF#4, none⟩) = true ∧
    lineOk Config.build32 (.mw 0xFF 5#32) = true ∧ lineOk Config.build32 (.mr 0xFF) = true := by decide

theorem witness_CarriesStayApart :
    (∃ t : Sys Config.build32, exec .dadc ⟨_, scenarioS4⟩ = .next ⟨_, t⟩) ∧
    (∃ t : Sys Config.build32, exec .rca ⟨_, scenarioS4⟩ = .next ⟨_, t⟩) ∧
    (∃ t : Sys Config.build32, exec .ccp ⟨_, scenarioS4⟩ = .next ⟨_, t⟩) ∧
    ∃ t : Sys Config.build32, exec .dmac ⟨_, scenarioS4⟩ = .next ⟨_, t⟩ :=
  ⟨⟨_, rfl⟩, ⟨_, rfl⟩, ⟨_, rfl⟩, ⟨_, rfl⟩⟩

/-- `scenarioS4` with other digits in the registers, another carry and another digit in a cell of neither sequence. -/
def scenarioS4Elsewhere : Sys Config.build32 :=
  { scenarioS4 with A := 7, K := 9, CF := true, DM := scenarioS4.DM ++ [(0x80, 3#32)] }

theorem witness_RcaDependsOnlyOnWhatItReads : RcaReady scenarioS4 ∧ RcaReady scenarioS4Elsewhere ∧
    scenarioS4Elsewhere.PA = scenarioS4.PA ∧ scenarioS4Elsewhere.NA = scenarioS4.NA ∧
    scenarioS4Elsewhere.PB = scenarioS4.PB ∧ scenarioS4Elsewhere.NB = scenarioS4.NB ∧
    scenarioS4Elsewhere.seq scenarioS4.PA scenarioS4.NA.toNat = scenarioS4.seq scenarioS4.PA scenarioS4.NA.toNat ∧
    scenarioS4Elsewhere.seq scenarioS4.PB scenarioS4.NB.toNat = scenarioS4.seq scenarioS4.PB scenarioS4.NB.toNat :=
  ⟨ready_scenarioS4, ⟨by decide, by decide, by decide, by decide, by decide⟩, by decide, by decide, by decide,
    by decide, by decide, by decide⟩

/-- Another instance on the memory of `scenarioS4`, its `a` beside the first's. -/
def otherInstance : Sys Config.build32 := { scenarioS4 with PA := 0x12#32, NA := 1#32, NB := 1#32 }

theorem witness_DisjointInstancesDoNotInterfere : otherInstance.DM = scenarioS4.DM ∧
    otherInstance.powerUp = scenarioS4.powerUp ∧ RcaReady scenarioS4 ∧ RcaReady otherInstance ∧
    Apart scenarioS4.PA scenarioS4.NA otherInstance.PA otherInstance.NA ∧
    Apart scenarioS4.PA scenarioS4.NA otherInstance.PB otherInstance.NB :=
  ⟨rfl, rfl, ready_scenarioS4, ⟨by decide, by decide, by decide, by decide, by decide⟩, by decide, by decide⟩

end Sys2Proof.Tests
end

section
/-!
PROOFS. The statements on spec/00_scope.md: the primitives of R11, one step of the host's list (R8), and the build that
no step changes (R5).
-/

namespace Sys2Proof.Machine

/-! ### The primitives `addc` and `mulwide` (R11) -/

section Primitives

variable {W : Nat}

theorem addc_sum_toNat (x y : Digit W) : (addc x y).1.toNat = (x.toNat + y.toNat) % 2 ^ W :=
  BitVec.toNat_add x y

theorem addc_carry_eq_true_iff (x y : Digit W) : (addc x y).2 = true ↔ 2 ^ W ≤ x.toNat + y.toNat :=
  decide_eq_true_iff

theorem digit_mul_lt (x y : Digit W) : x.toNat * y.toNat < 2 ^ (2 * W) := by
  rw [Nat.two_mul, Nat.pow_add]
  exact Nat.mul_lt_mul'' x.isLt y.isLt

/-- The high digit is the whole quotient: the product of two digits has no third digit. -/
theorem mulwide_hi_toNat (x y : Digit W) : (mulwide x y).1.toNat = x.toNat * y.toNat / 2 ^ W := by
  have hhi : x.toNat * y.toNat / 2 ^ W < 2 ^ W :=
    Nat.div_lt_of_lt_mul (Nat.mul_lt_mul'' x.isLt y.isLt)
  rw [mulwide, BitVec.toNat_ofNat, Nat.mod_eq_of_lt hhi]

theorem mulwide_lo_toNat (x y : Digit W) : (mulwide x y).2.toNat = x.toNat * y.toNat % 2 ^ W :=
  BitVec.toNat_ofNat _ _

theorem mulwide_toNat (x y : Digit W) :
    (mulwide x y).1.toNat * 2 ^ W + (mulwide x y).2.toNat = x.toNat * y.toNat := by
  rw [mulwide_hi_toNat, mulwide_lo_toNat, Nat.div_add_mod']

end Primitives

/-! ### What one line of the host does (R8, R63) -/

section Lines

variable {b : Build} {s : Sys b}

theorem exec_wr_of_fits {reg : Reg} {v : Nat} (h : v < 2 ^ reg.width b) :
    exec (.wr reg v) ⟨b, s⟩ = .next ⟨b, portWrite reg v s⟩ := if_pos h

theorem exec_wr_of_tooWide {reg : Reg} {v : Nat} (h : ¬ v < 2 ^ reg.width b) :
    exec (.wr reg v) ⟨b, s⟩ = .refused .valueTooWide := if_neg h

theorem hostWrite_of_cell {addr : Nat} (v : Digit b.W) (h : addr < b.memDigits) :
    hostWrite addr v s = .next ⟨b, { s with DM := storeCell s.DM addr v }⟩ := if_pos h

theorem hostWrite_of_noCell {addr : Nat} (v : Digit b.W) (h : ¬ addr < b.memDigits) :
    hostWrite addr v s = .refused .noSuchCell := if_neg h

theorem hostRead_of_cell {addr : Nat} (h : addr < b.memDigits) :
    hostRead addr s = .next ⟨b, giveBack ⟨b.W, s.cell addr⟩ s⟩ := if_pos h

theorem hostRead_of_noCell {addr : Nat} (h : ¬ addr < b.memDigits) :
    hostRead addr s = .refused .noSuchCell := if_neg h

theorem runLine_port_of_decode {t : Transaction} {i : Instr} (h : decode b t = .ok i) :
    runLine (.port t) s = exec i ⟨b, s⟩ := by
  simp only [runLine, h]

theorem runLine_port_of_reject {t : Transaction} {why : DecodeReject} (h : decode b t = .error why) :
    runLine (.port t) s = .refused (.badTransaction why) := by
  simp only [runLine, h]

theorem step_of_pending_nil (h : s.pending = []) : step ⟨b, s⟩ = .next ⟨b, s⟩ := by
  simp only [step, h]

theorem step_of_pending_cons {line : HostLine b.W} {rest : List (HostLine b.W)} (h : s.pending = line :: rest) :
    step ⟨b, s⟩ = runLine line (takeLine rest s) := by
  simp only [step, h]

end Lines

/-! ### The build is fixed (R5) -/

section FixedBuild

variable {b : Build} {s : Sys b} {t : State}

/-- An outcome written over the build `b` is a state of that build. -/
theorem build_of_next (h : (.next ⟨b, s⟩ : Host.Outcome State Fault Refusal) = .next t) : t.build = b := by
  cases h
  rfl

theorem exec_keeps_build {i : Instr} (h : exec i ⟨b, s⟩ = .next t) : t.build = b := by
  cases i with
  | dadc | dmac | rca | ccp | rd => exact build_of_next h
  | wr reg v =>
    by_cases hv : v < 2 ^ reg.width b
    · exact build_of_next ((exec_wr_of_fits hv).symm.trans h)
    · cases (exec_wr_of_tooWide hv).symm.trans h

theorem hostWrite_keeps_build {addr : Nat} {v : Digit b.W} (h : hostWrite addr v s = .next t) : t.build = b := by
  by_cases ha : addr < b.memDigits
  · exact build_of_next ((hostWrite_of_cell v ha).symm.trans h)
  · cases (hostWrite_of_noCell v ha).symm.trans h

theorem hostRead_keeps_build {addr : Nat} (h : hostRead addr s = .next t) : t.build = b := by
  by_cases ha : addr < b.memDigits
  · exact build_of_next ((hostRead_of_cell ha).symm.trans h)
  · cases (hostRead_of_noCell ha).symm.trans h

theorem runLine_keeps_build {line : HostLine b.W} (h : runLine line s = .next t) : t.build = b := by
  cases line with
  | port tr =>
    cases hd : decode b tr with
    | ok i => exact exec_keeps_build ((runLine_port_of_decode hd).symm.trans h)
    | error why => cases (runLine_port_of_reject hd).symm.trans h
  | mw addr v => exact hostWrite_keeps_build h
  | mr addr => exact hostRead_keeps_build h
  | reset => exact build_of_next h

end FixedBuild

/-- Settles O54, by cases on the host's list: an idle step answers its own state, and every line keeps the build. -/
theorem stepKeepsTheBuild : Obligations.StepKeepsTheBuild := by
  rintro ⟨b, s⟩ t h
  cases hp : s.pending with
  | nil => exact build_of_next ((step_of_pending_nil hp).symm.trans h)
  | cons line rest => exact runLine_keeps_build ((step_of_pending_cons hp).symm.trans h)

/-- Settles O6: the step runs the head of the list, and running a transaction is `exec` of its decoding. -/
theorem stepRunsDecodedInstruction : Obligations.StepRunsDecodedInstruction := fun _ _ _ _ _ hp hd =>
  (step_of_pending_cons hp).trans (runLine_port_of_decode hd)

/-- Settles O10: `addc` by its exact contract, `mulwide` by division of the product by `2^W`. -/
theorem arithmeticPrimitivesAreExact : Obligations.ArithmeticPrimitivesAreExact := fun _ x y =>
  ⟨addc_sum_toNat x y, addc_carry_eq_true_iff x y, addc_toNat x y, mulwide_toNat x y, digit_mul_lt x y⟩

end Sys2Proof.Machine
end

section
/-!
PROOFS. The statements on spec/10_state.md: what holds at reset and what every step keeps (R21, R29), what the commands
leave alone (R14, R17, R18, R31), and on what the results of an `RCA` depend (R24, R33).
-/

namespace Sys2Proof.Machine

variable {b : Build}

/-! ### The four commands as effects on the state -/

/-- What a command does on a block that is not halted. -/
def commandEffect : Command → Sys b → Sys b
  | .dadc => dadcCommand
  | .dmac => dmacCommand
  | .rca => rcaCommand
  | .ccp => ccpCommand

theorem exec_instr (c : Command) (s : Sys b) : exec c.instr ⟨b, s⟩ = .next ⟨b, issue (commandEffect c) s⟩ := by
  cases c <;> rfl

theorem commandWord_of_some {word : BitVec 8} {c : Command} (h : decodeCommand word = some c) (s : Sys b) :
    commandWord word s = commandEffect c s := by
  cases c <;> simp only [commandWord, h, commandEffect]

theorem commandWord_of_none {word : BitVec 8} (h : decodeCommand word = none) (s : Sys b) :
    commandWord word s = raise .illegalFault s := by
  simp only [commandWord, h]

theorem sys_of_next {s t : Sys b} (h : (.next ⟨b, s⟩ : Host.Outcome State Fault Refusal) = .next ⟨b, t⟩) : t = s := by
  cases h
  rfl

/-! ### What the commands leave alone (R14, R18, R31) -/

/-- The loops write only the positions of `a` they run over. -/
theorem prefixLoop_cell_of_ne (pa pb : BitVec b.AW) (count i : Nat) (carry : Bool) (s : Sys b) {addr : Nat}
    (h : ∀ j, i ≤ j → j < i + count → addr ≠ digitAddr pa j) :
    (prefixLoop pa pb count i carry s).2.cell addr = s.cell addr := by
  induction count generalizing i carry s with
  | zero => rfl
  | succ count ih =>
    exact (ih (i + 1) _ _ fun j _ _ => h j (by omega) (by omega)).trans
      (memWrite_cell_ne _ _ (h i le_rfl (by omega)))

theorem suffixLoop_cell_of_ne (pa : BitVec b.AW) (count i : Nat) (carry : Bool) (s : Sys b) {addr : Nat}
    (h : ∀ j, i ≤ j → j < i + count → addr ≠ digitAddr pa j) :
    (suffixLoop pa count i carry s).state.cell addr = s.cell addr := by
  induction count generalizing i carry s with
  | zero => rfl
  | succ count ih =>
    cases carry with
    | false => rfl
    | true =>
      exact (ih (i + 1) _ _ fun j _ _ => h j (by omega) (by omega)).trans
        (memWrite_cell_ne _ _ (h i le_rfl (by omega)))

/-- Is `addr` outside the cells of the sequence? -/
abbrev Outside (base len : BitVec b.AW) (addr : Nat) : Prop :=
  addr < base.toNat ∨ base.toNat + len.toNat ≤ addr

theorem Outside.ne_digitAddr {base len : BitVec b.AW} {addr j : Nat} (h : Outside base len addr)
    (hj : j < len.toNat) : addr ≠ digitAddr base j := by
  simp only [digitAddr]
  omega

theorem rcaBody_cell_of_outside {s : Sys b} (hlen : s.NB.toNat ≤ s.NA.toNat) {addr : Nat}
    (h : Outside s.PA s.NA addr) : (rcaBody s).cell addr = s.cell addr :=
  (suffixLoop_cell_of_ne _ _ _ _ _ fun _ _ _ => h.ne_digitAddr (by omega)).trans
    (prefixLoop_cell_of_ne _ _ _ _ _ _ fun _ _ _ => h.ne_digitAddr (by omega))

theorem ccpBody_cell_of_outside {s : Sys b} (hlen : s.NB.toNat ≤ s.NA.toNat) {addr : Nat}
    (h : Outside s.PA s.NA addr) : (ccpBody s).cell addr = s.cell addr :=
  suffixLoop_cell_of_ne _ _ _ _ _ fun _ _ _ => h.ne_digitAddr (by omega)

/-- A command that leaves `s` as `t` keeps what is not its own: `B`, `C`, the descriptors, the host's side, and every
cell outside `a`. -/
structure KeepsOthers (s t : Sys b) : Prop where
  registers : ∃ a k cf ix st m acc,
    t = { s with A := a, K := k, CF := cf, IDX := ix, STATUS := st, DM := m, accesses := acc }
  cells : ∀ addr, Outside s.PA s.NA addr → t.cell addr = s.cell addr

theorem KeepsOthers.refl (s : Sys b) : KeepsOthers s s := ⟨⟨_, _, _, _, _, _, _, rfl⟩, fun _ _ => rfl⟩

theorem KeepsOthers.of_checked {fault : Option FaultKind} {body : Sys b → Sys b} {s : Sys b}
    (h : fault = none → KeepsOthers s (body s)) : KeepsOthers s (checked fault body s) := by
  rcases checked_cases fault body s with ⟨f, -, hf⟩ | ⟨hnone, hbody⟩
  · exact hf ▸ ⟨⟨_, _, _, _, _, _, _, rfl⟩, fun _ _ => rfl⟩
  · exact hbody ▸ h hnone

theorem commandEffect_keepsOthers (c : Command) (s : Sys b) : KeepsOthers s (commandEffect c s) := by
  cases c with
  | dadc | dmac => exact ⟨⟨_, _, _, _, _, _, _, rfl⟩, fun _ _ => rfl⟩
  | rca =>
    refine .of_checked fun hf => ⟨?_, fun _ => rcaBody_cell_of_outside (rcaFault_eq_none.1 hf).1⟩
    obtain ⟨_, _, _, _, h⟩ := rcaBody_registers s
    exact ⟨_, _, _, _, _, _, _, h⟩
  | ccp =>
    refine .of_checked fun hf => ⟨?_, fun _ => ccpBody_cell_of_outside (ccpFault_eq_none.1 hf).1⟩
    obtain ⟨_, _, _, _, h⟩ := ccpBody_registers s
    exact ⟨_, _, _, _, _, _, _, h⟩

theorem issue_commandEffect_keepsOthers (c : Command) (s : Sys b) :
    KeepsOthers s (issue (commandEffect c) s) := by
  rcases issue_cases (commandEffect c) s with ⟨-, h⟩ | ⟨-, h⟩
  · rw [h]; exact .refl s
  · rw [h]; exact commandEffect_keepsOthers c s

/-! ### The invariant (R21, R34, R117) -/

/-- The invariant speaks of `DM` and `STATUS` alone. -/
theorem Inv.congr {s t : Sys b} (h : Inv ⟨b, s⟩) (hDM : t.DM = s.DM) (hst : t.STATUS = s.STATUS) : Inv ⟨b, t⟩ :=
  ⟨(congrArg Memory.wf hDM).mpr h.canonical, hDM ▸ h.cells, hst ▸ h.status⟩

/-- A `STATUS` that holds a code has its reserved bits 0, so a fault leaves the code of that fault alone (R21, R123). -/
theorem raise_STATUS_toNat (f : FaultKind) {s : Sys b} (h : s.STATUS.toNat ≤ 4) :
    (raise f s).STATUS.toNat = (faultCode f).toNat := by
  have hhi : s.STATUS.extractLsb' 3 5 = 0#5 := by
    apply BitVec.eq_of_toNat_eq
    simp only [BitVec.extractLsb'_toNat, Nat.shiftRight_eq_div_pow, BitVec.toNat_ofNat]
    omega
  rw [raise_STATUS, hhi]
  cases f <;> rfl

theorem raise_inv (f : FaultKind) {s : Sys b} (h : Inv ⟨b, s⟩) : Inv ⟨b, raise f s⟩ where
  canonical := h.canonical
  cells := h.cells
  status := (raise_STATUS_toNat f h.status).trans_le (by cases f <;> decide)

theorem checked_inv {fault : Option FaultKind} {body : Sys b → Sys b} {s : Sys b} (h : Inv ⟨b, s⟩)
    (hbody : fault = none → Inv ⟨b, body s⟩) : Inv ⟨b, checked fault body s⟩ := by
  rcases checked_cases fault body s with ⟨f, -, hf⟩ | ⟨hnone, hb⟩
  · exact hf ▸ raise_inv f h
  · exact hb ▸ hbody hnone

theorem issue_inv {command : Sys b → Sys b} {s : Sys b} (h : Inv ⟨b, s⟩) (hc : Inv ⟨b, command s⟩) :
    Inv ⟨b, issue command s⟩ := by
  rcases issue_cases command s with ⟨-, hi⟩ | ⟨-, hi⟩
  · rwa [hi]
  · rwa [hi]

theorem digitAddr_lt_memDigits {base len : BitVec b.AW} (h : InMemory base len) {j : Nat} (hj : j < len.toNat) :
    digitAddr base j < b.memDigits := by
  have := h (by omega)
  simp only [digitAddr]
  omega

theorem prefixLoop_inv (pa pb : BitVec b.AW) (count i : Nat) (carry : Bool) {s : Sys b} (h : Inv ⟨b, s⟩)
    (hin : ∀ j, i ≤ j → j < i + count → digitAddr pa j < b.memDigits) :
    Inv ⟨b, (prefixLoop pa pb count i carry s).2⟩ := by
  obtain ⟨hwf, hcells⟩ := prefixLoop_memory pa pb count i carry s hin h.canonical h.cells
  obtain ⟨m, acc, hs⟩ := prefixLoop_registers pa pb count i carry s
  exact ⟨hwf, hcells, (congrArg (·.STATUS.toNat) hs).trans_le h.status⟩

theorem suffixLoop_inv (pa : BitVec b.AW) (count i : Nat) (carry : Bool) {s : Sys b} (h : Inv ⟨b, s⟩)
    (hin : ∀ j, i ≤ j → j < i + count → digitAddr pa j < b.memDigits) :
    Inv ⟨b, (suffixLoop pa count i carry s).state⟩ := by
  obtain ⟨hwf, hcells⟩ := suffixLoop_memory pa count i carry s hin h.canonical h.cells
  obtain ⟨m, acc, hs⟩ := suffixLoop_registers pa count i carry s
  exact ⟨hwf, hcells, (congrArg (·.STATUS.toNat) hs).trans_le h.status⟩

theorem finish_inv {e : LoopEnd b} (h : Inv ⟨b, e.state⟩) : Inv ⟨b, finish e⟩ := h.congr rfl rfl

theorem rcaBody_inv {s : Sys b} (h : Inv ⟨b, s⟩) (hlen : s.NB.toNat ≤ s.NA.toNat) (ha : InMemory s.PA s.NA) :
    Inv ⟨b, rcaBody s⟩ :=
  finish_inv (suffixLoop_inv _ _ _ _
    (prefixLoop_inv _ _ _ _ _ h fun _ _ _ => digitAddr_lt_memDigits ha (by omega))
    fun _ _ _ => digitAddr_lt_memDigits ha (by omega))

theorem ccpBody_inv {s : Sys b} (h : Inv ⟨b, s⟩) (hlen : s.NB.toNat ≤ s.NA.toNat) (ha : InMemory s.PA s.NA) :
    Inv ⟨b, ccpBody s⟩ :=
  finish_inv (suffixLoop_inv _ _ _ _ h fun _ _ _ => digitAddr_lt_memDigits ha (by omega))

/-- The checks of a sequence command are what keeps its writes inside `DM`. -/
theorem commandEffect_inv (c : Command) {s : Sys b} (h : Inv ⟨b, s⟩) : Inv ⟨b, commandEffect c s⟩ := by
  cases c with
  | dadc | dmac => exact h.congr rfl rfl
  | rca =>
    refine checked_inv h fun hf => ?_
    obtain ⟨hlen, ⟨ha, -⟩, -⟩ := rcaFault_eq_none.1 hf
    exact rcaBody_inv h hlen ha
  | ccp =>
    refine checked_inv h fun hf => ?_
    obtain ⟨hlen, ha⟩ := ccpFault_eq_none.1 hf
    exact ccpBody_inv h hlen ha

theorem commandWord_inv (word : BitVec 8) {s : Sys b} (h : Inv ⟨b, s⟩) : Inv ⟨b, commandWord word s⟩ := by
  cases hd : decodeCommand word with
  | none => exact commandWord_of_none hd s ▸ raise_inv _ h
  | some c => exact commandWord_of_some hd s ▸ commandEffect_inv c h

theorem portWrite_inv (r : Reg) (v : Nat) {s : Sys b} (h : Inv ⟨b, s⟩) : Inv ⟨b, portWrite r v s⟩ := by
  cases r with
  | CMD => exact issue_inv h (commandWord_inv _ h)
  | A | B | C | K | CF | PA | NA | PB | NB | IDX | STATUS | reserved => exact h.congr rfl rfl

theorem exec_inv {i : Instr} {s : Sys b} {t : State} (h : Inv ⟨b, s⟩) (ht : exec i ⟨b, s⟩ = .next t) : Inv t := by
  cases i with
  | dadc => cases ht; exact issue_inv h (commandEffect_inv .dadc h)
  | dmac => cases ht; exact issue_inv h (commandEffect_inv .dmac h)
  | rca => cases ht; exact issue_inv h (commandEffect_inv .rca h)
  | ccp => cases ht; exact issue_inv h (commandEffect_inv .ccp h)
  | rd r => cases ht; exact h.congr rfl rfl
  | wr r v =>
    by_cases hv : v < 2 ^ r.width b
    · cases (exec_wr_of_fits hv).symm.trans ht
      exact portWrite_inv r v h
    · cases (exec_wr_of_tooWide hv).symm.trans ht

theorem hostWrite_inv {addr : Nat} {v : Digit b.W} {s : Sys b} {t : State} (h : Inv ⟨b, s⟩)
    (ht : hostWrite addr v s = .next t) : Inv t := by
  by_cases ha : addr < b.memDigits
  · cases (hostWrite_of_cell v ha).symm.trans ht
    exact ⟨storeCell_wf h.canonical addr v, storeCell_cells h.cells ha v, h.status⟩
  · cases (hostWrite_of_noCell v ha).symm.trans ht

theorem hostRead_inv {addr : Nat} {s : Sys b} {t : State} (h : Inv ⟨b, s⟩) (ht : hostRead addr s = .next t) :
    Inv t := by
  by_cases ha : addr < b.memDigits
  · cases (hostRead_of_cell ha).symm.trans ht
    exact h.congr rfl rfl
  · cases (hostRead_of_noCell ha).symm.trans ht

theorem resetRegisters_inv {s : Sys b} (h : Inv ⟨b, s⟩) : Inv ⟨b, resetRegisters s⟩ where
  canonical := h.canonical
  cells := h.cells
  status := Nat.zero_le 4

theorem runLine_inv {line : HostLine b.W} {s : Sys b} {t : State} (h : Inv ⟨b, s⟩)
    (ht : runLine line s = .next t) : Inv t := by
  cases line with
  | port tr =>
    cases hd : decode b tr with
    | ok i => exact exec_inv h ((runLine_port_of_decode hd).symm.trans ht)
    | error why => cases (runLine_port_of_reject hd).symm.trans ht
  | mw addr v => exact hostWrite_inv h ht
  | mr addr => exact hostRead_inv h ht
  | reset => cases ht; exact resetRegisters_inv h

/-! ### The two carries (R17) -/

/-- The state with another digit in `K`. -/
def setK (k : Digit b.W) (s : Sys b) : Sys b := { s with K := k }

/-- The state with another carry in `CF`. -/
def setCF (c : Bool) (s : Sys b) : Sys b := { s with CF := c }

/-- An update of registers that the accesses to `DM` do not see and do not undo. -/
structure CommutesWithMemory (u : Sys b → Sys b) : Prop where
  cell : ∀ s addr, (u s).cell addr = s.cell addr
  read : ∀ s addr, (memRead addr (u s)).2 = u (memRead addr s).2
  write : ∀ s addr v, memWrite addr v (u s) = u (memWrite addr v s)

namespace CommutesWithMemory

variable {u : Sys b → Sys b} (hu : CommutesWithMemory u)
include hu

theorem prefixPosition_comm (pa pb : BitVec b.AW) (i : Nat) (carry : Bool) (s : Sys b) :
    prefixPosition pa pb i carry (u s) =
      ((prefixPosition pa pb i carry s).1, u (prefixPosition pa pb i carry s).2) := by
  simp only [prefixPosition, memRead_value, hu.cell, hu.read, hu.write]

theorem suffixPosition_comm (pa : BitVec b.AW) (i : Nat) (carry : Bool) (s : Sys b) :
    suffixPosition pa i carry (u s) = ((suffixPosition pa i carry s).1, u (suffixPosition pa i carry s).2) := by
  simp only [suffixPosition, memRead_value, hu.cell, hu.read, hu.write]

theorem prefixLoop_comm (pa pb : BitVec b.AW) (count i : Nat) (carry : Bool) (s : Sys b) :
    prefixLoop pa pb count i carry (u s) =
      ((prefixLoop pa pb count i carry s).1, u (prefixLoop pa pb count i carry s).2) := by
  induction count generalizing i carry s with
  | zero => rfl
  | succ count ih => simp only [prefixLoop, hu.prefixPosition_comm, ih]

theorem suffixLoop_comm (pa : BitVec b.AW) (count i : Nat) (carry : Bool) (s : Sys b) :
    suffixLoop pa count i carry (u s) =
      ⟨(suffixLoop pa count i carry s).index, (suffixLoop pa count i carry s).carry,
        u (suffixLoop pa count i carry s).state⟩ := by
  induction count generalizing i carry s with
  | zero => rfl
  | succ count ih =>
    cases carry with
    | false => rfl
    | true => simp only [suffixLoop, if_true, hu.suffixPosition_comm, ih]

end CommutesWithMemory

theorem setK_commutesWithMemory (k : Digit b.W) : CommutesWithMemory (setK k) :=
  ⟨fun _ _ => rfl, fun _ _ => rfl, fun _ _ _ => rfl⟩

theorem rcaBody_setK (k : Digit b.W) (s : Sys b) : rcaBody (setK k s) = setK k (rcaBody s) := by
  have hu := setK_commutesWithMemory k
  have hp := hu.prefixLoop_comm s.PA s.PB s.NB.toNat 0 false s
  have hs := hu.suffixLoop_comm s.PA (s.NA.toNat - s.NB.toNat) s.NB.toNat
    (prefixLoop s.PA s.PB s.NB.toNat 0 false s).1 (prefixLoop s.PA s.PB s.NB.toNat 0 false s).2
  calc rcaBody (setK k s)
      = finish (suffixLoop s.PA (s.NA.toNat - s.NB.toNat) s.NB.toNat
          (prefixLoop s.PA s.PB s.NB.toNat 0 false (setK k s)).1
          (prefixLoop s.PA s.PB s.NB.toNat 0 false (setK k s)).2) := rfl
    _ = setK k (rcaBody s) := by rw [hp, hs]; rfl

theorem ccpBody_setK (k : Digit b.W) (s : Sys b) : ccpBody (setK k s) = setK k (ccpBody s) :=
  congrArg finish ((setK_commutesWithMemory k).suffixLoop_comm s.PA (s.NA.toNat - s.NB.toNat) s.NB.toNat s.CF s)

theorem checked_setK (fault : Option FaultKind) {body : Sys b → Sys b} {k : Digit b.W} {s : Sys b}
    (h : body (setK k s) = setK k (body s)) :
    checked fault body (setK k s) = setK k (checked fault body s) := by
  cases fault with
  | none => exact h
  | some f => rfl

/-- No command but `DMAC` reads or writes `K`. -/
theorem commandEffect_setK {c : Command} (hc : c ≠ .dmac) (k : Digit b.W) (s : Sys b) :
    commandEffect c (setK k s) = setK k (commandEffect c s) := by
  cases c with
  | dadc => rfl
  | dmac => exact absurd rfl hc
  | rca => exact checked_setK (rcaFault s) (rcaBody_setK k s)
  | ccp => exact checked_setK (ccpFault s) (ccpBody_setK k s)

/-- What commutes with a command, and does not touch `STATUS`, commutes with issuing it. -/
theorem issue_comm {u command : Sys b → Sys b} {s : Sys b} (hst : (u s).STATUS = s.STATUS)
    (hc : command (u s) = u (command s)) : issue command (u s) = u (issue command s) := by
  have hh := halted_congr hst
  rcases issue_cases command s with ⟨h, hi⟩ | ⟨h, hi⟩
  · rw [hi, issue_of_halted (hh.trans h)]
  · rw [hi, issue_of_running (hh.trans h), hc]

theorem exec_setK {c : Command} (hc : c ≠ .dmac) {s t : Sys b} (h : exec c.instr ⟨b, s⟩ = .next ⟨b, t⟩) :
    t.K = s.K ∧ ∀ k, exec c.instr ⟨b, setK k s⟩ = .next ⟨b, setK k t⟩ := by
  obtain rfl := sys_of_next ((exec_instr c s).symm.trans h)
  have hcomm (k : Digit b.W) : issue (commandEffect c) (setK k s) = setK k (issue (commandEffect c) s) :=
    issue_comm rfl (commandEffect_setK hc k s)
  -- Setting `K` to what it holds changes nothing, so that it commutes says that `K` is kept.
  exact ⟨(congrArg Sys.K (hcomm s.K) :), fun k => by rw [exec_instr, hcomm]⟩

theorem exec_dmac_setCF {s t : Sys b} (h : exec Command.dmac.instr ⟨b, s⟩ = .next ⟨b, t⟩) :
    t.CF = s.CF ∧ ∀ c, exec Command.dmac.instr ⟨b, setCF c s⟩ = .next ⟨b, setCF c t⟩ := by
  obtain rfl := sys_of_next ((exec_instr .dmac s).symm.trans h)
  have hcomm (c : Bool) : issue (commandEffect .dmac) (setCF c s) = setCF c (issue (commandEffect .dmac) s) :=
    issue_comm rfl rfl
  exact ⟨(congrArg Sys.CF (hcomm s.CF) :), fun c => by rw [exec_instr, hcomm]⟩

/-! ### Two runs on memories that agree (R24, R150) -/

section Agreement

variable {S : Set Nat} {s t : Sys b}

theorem memWrite_eqOn (addr : Nat) (v : Digit b.W) (h : S.EqOn t.cell s.cell) :
    S.EqOn (memWrite addr v t).cell (memWrite addr v s).cell := fun x hx => by
  simp only [memWrite_cell, h hx]

/-- Where two memories agree on all digits that a loop reads, the loop ends with the same carry and they still agree. -/
theorem prefixLoop_eqOn (pa pb : BitVec b.AW) (count i : Nat) (carry : Bool)
    (ha : ∀ j, i ≤ j → j < i + count → digitAddr pa j ∈ S) (hb : ∀ j, i ≤ j → j < i + count → digitAddr pb j ∈ S)
    (h : S.EqOn t.cell s.cell) :
    (prefixLoop pa pb count i carry t).1 = (prefixLoop pa pb count i carry s).1 ∧
      S.EqOn (prefixLoop pa pb count i carry t).2.cell (prefixLoop pa pb count i carry s).2.cell := by
  induction count generalizing i carry s t with
  | zero => exact ⟨rfl, h⟩
  | succ count ih =>
    have hav := h (ha i le_rfl (by omega))
    have hbv := h (hb i le_rfl (by omega))
    have hcarry : (prefixPosition pa pb i carry t).1 = (prefixPosition pa pb i carry s).1 := by
      simp [prefixPosition, hav, hbv]
    have hnext : S.EqOn (prefixPosition pa pb i carry t).2.cell (prefixPosition pa pb i carry s).2.cell := by
      simp only [prefixPosition, memRead_value, memRead_cell, hav, hbv]
      exact memWrite_eqOn _ _ h
    simp only [prefixLoop, hcarry]
    exact ih (i + 1) _ (fun j _ _ => ha j (by omega) (by omega)) (fun j _ _ => hb j (by omega) (by omega)) hnext

theorem suffixLoop_eqOn (pa : BitVec b.AW) (count i : Nat) (carry : Bool)
    (ha : ∀ j, i ≤ j → j < i + count → digitAddr pa j ∈ S) (h : S.EqOn t.cell s.cell) :
    (suffixLoop pa count i carry t).index = (suffixLoop pa count i carry s).index ∧
      (suffixLoop pa count i carry t).carry = (suffixLoop pa count i carry s).carry ∧
      S.EqOn (suffixLoop pa count i carry t).state.cell (suffixLoop pa count i carry s).state.cell := by
  induction count generalizing i carry s t with
  | zero => exact ⟨rfl, rfl, h⟩
  | succ count ih =>
    cases carry with
    | false => exact ⟨rfl, rfl, h⟩
    | true =>
      have hav := h (ha i le_rfl (by omega))
      have hcarry : (suffixPosition pa i true t).1 = (suffixPosition pa i true s).1 := by
        simp [suffixPosition, hav]
      have hnext : S.EqOn (suffixPosition pa i true t).2.cell (suffixPosition pa i true s).2.cell := by
        simp only [suffixPosition, memRead_value, hav]
        exact memWrite_eqOn _ _ h
      simp only [suffixLoop, if_true, hcarry]
      exact ih (i + 1) _ (fun j _ _ => ha j (by omega) (by omega)) hnext

/-- The addresses of the cells of a sequence. -/
def seqCells (base len : BitVec b.AW) : Set Nat := Set.Ico base.toNat (base.toNat + len.toNat)

theorem digitAddr_mem_seqCells {base len : BitVec b.AW} {j : Nat} (h : j < len.toNat) :
    digitAddr base j ∈ seqCells base len := by
  simp only [seqCells, digitAddr, Set.mem_Ico]
  omega

/-- Two states hold equal digits in a sequence exactly when they agree on its cells. -/
theorem seq_eq_iff_eqOn {base len : BitVec b.AW} :
    t.seq base len.toNat = s.seq base len.toNat ↔ (seqCells base len).EqOn t.cell s.cell := by
  simp only [Sys.seq, List.map_inj_left, List.mem_range]
  refine ⟨fun h addr ha => ?_, fun h j hj => h (digitAddr_mem_seqCells hj)⟩
  obtain ⟨hlo, hhi⟩ := ha
  have := h (addr - base.toNat) (by omega)
  rwa [digitAddr, Nat.add_sub_cancel' hlo] at this

/-- The cells of both sequences of an `RCA`. -/
def rcaCells (s : Sys b) : Set Nat := seqCells s.PA s.NA ∪ seqCells s.PB s.NB

/-- The results of an `RCA` past its checks are a function of the descriptors and of the digits in the two sequences. -/
theorem rcaBody_eqOn (hlen : s.NB.toNat ≤ s.NA.toNat) (hPA : t.PA = s.PA) (hNA : t.NA = s.NA) (hPB : t.PB = s.PB)
    (hNB : t.NB = s.NB) (h : (rcaCells s).EqOn t.cell s.cell) :
    (rcaBody t).CF = (rcaBody s).CF ∧ (rcaBody t).IDX = (rcaBody s).IDX ∧
      (rcaBody t).seq s.PA s.NA.toNat = (rcaBody s).seq s.PA s.NA.toNat := by
  have ha {j : Nat} (hj : j < s.NA.toNat) : digitAddr s.PA j ∈ rcaCells s := .inl (digitAddr_mem_seqCells hj)
  have hb {j : Nat} (hj : j < s.NB.toNat) : digitAddr s.PB j ∈ rcaCells s := .inr (digitAddr_mem_seqCells hj)
  obtain ⟨hcarry, hcells⟩ := prefixLoop_eqOn s.PA s.PB s.NB.toNat 0 false
    (fun _ _ _ => ha (by omega)) (fun _ _ _ => hb (by omega)) h
  obtain ⟨hindex, hcarry', hcells'⟩ := suffixLoop_eqOn s.PA (s.NA.toNat - s.NB.toNat) s.NB.toNat
    (prefixLoop s.PA s.PB s.NB.toNat 0 false s).1 (fun _ _ _ => ha (by omega)) hcells
  rw [seq_eq_iff_eqOn]
  simp only [rcaBody, finish_CF, finish_IDX, hPA, hNA, hPB, hNB, hcarry, hindex, hcarry', true_and]
  exact hcells'.mono Set.subset_union_left

/-- A cell of a sequence is outside every sequence apart from it. -/
theorem Apart.outside {pa na pb nb : BitVec b.AW} (h : Apart pa na pb nb) {addr : Nat} (ha : addr ∈ seqCells pb nb) :
    Outside pa na addr := by
  simp only [seqCells, Set.mem_Ico] at ha
  omega

theorem RcaReady.withMemory (h : RcaReady s) (m : Memory b.W) : RcaReady { s with DM := m } :=
  ⟨h.running, h.length, h.a_in, h.b_in, h.apart⟩

/-- A state that takes over another's memory, on the same power-up, takes over its cells. -/
theorem cell_withMemory (hp : s.powerUp = t.powerUp) (addr : Nat) :
    Sys.cell { s with DM := t.DM } addr = t.cell addr := by
  simp only [Sys.cell, hp]

/-- An `RCA` changes no cell of two sequences apart from its `a`. -/
theorem rcaBody_eqOn_of_apart (h : RcaReady s) (ha : Apart s.PA s.NA t.PA t.NA) (hb : Apart s.PA s.NA t.PB t.NB) :
    (rcaCells t).EqOn (rcaBody s).cell s.cell := by
  rintro addr (hm | hm)
  · exact rcaBody_cell_of_outside h.length (Apart.outside ha hm)
  · exact rcaBody_cell_of_outside h.length (Apart.outside hb hm)

end Agreement

/-! ### The statements -/

/-- Settles O53, by cases on the host's list: an idle step answers its own state, and every line keeps the invariant. -/
theorem stepKeepsTheInvariant : Obligations.StepKeepsTheInvariant := by
  rintro ⟨b, s⟩ t hs h
  cases hp : s.pending with
  | nil =>
    cases (step_of_pending_nil hp).symm.trans h
    exact hs
  | cons line rest =>
    exact runLine_inv (s := takeLine rest s) (hs.congr rfl rfl) ((step_of_pending_cons hp).symm.trans h)

/-- Settles O55: issuing a command keeps every other register and every cell outside `a`. -/
theorem commandsWriteOnlyTheirSequence : Obligations.CommandsWriteOnlyTheirSequence := by
  intro b s t c h
  obtain rfl := sys_of_next ((exec_instr c s).symm.trans h)
  obtain ⟨⟨a, k, cf, ix, st, m, acc, hregs⟩, hcells⟩ := issue_commandEffect_keepsOthers c s
  refine ⟨?_, ?_, ?_, ?_, ?_, ?_, ?_, ?_, ?_, hcells⟩ <;> rw [hregs]

/-- Settles O57: issuing `DADC`, `RCA` or `CCP` commutes with setting `K`, and issuing `DMAC` with setting `CF`. -/
theorem carriesStayApart : Obligations.CarriesStayApart := by
  refine fun b s t k c => ⟨fun i hi h => ?_, fun h => ?_⟩
  · obtain ⟨cmd, hne, rfl⟩ : ∃ cmd : Command, cmd ≠ .dmac ∧ cmd.instr = i := by
      rcases hi with rfl | rfl | rfl
      exacts [⟨.dadc, nofun, rfl⟩, ⟨.rca, nofun, rfl⟩, ⟨.ccp, nofun, rfl⟩]
    exact ⟨(exec_setK hne h).1, (exec_setK hne h).2 k⟩
  · exact ⟨(exec_dmac_setCF h).1, (exec_dmac_setCF h).2 c⟩

/-- Settles O58: both runs pass the checks, and their bodies run on memories that agree on the two sequences. -/
theorem rcaDependsOnlyOnWhatItReads : Obligations.RcaDependsOnlyOnWhatItReads := by
  intro b s s' hs hs' hPA hNA hPB hNB ha hb
  have hagree : (rcaCells s).EqOn s'.cell s.cell := (seq_eq_iff_eqOn.1 ha).union (seq_eq_iff_eqOn.1 hb)
  exact ⟨rcaBody s, rcaBody s', exec_rca_of_ready hs, exec_rca_of_ready hs',
    rcaBody_eqOn hs.length hPA hNA hPB hNB hagree⟩

/-- Settles O59: the first run leaves the cells of the second's sequences as they were, and the second's results depend
on no other cell. -/
theorem disjointInstancesDoNotInterfere : Obligations.DisjointInstancesDoNotInterfere := by
  intro b first second hDM hpower h1 h2 ha hb
  obtain ⟨c, i, m, acc, hregs⟩ := rcaBody_registers first
  have hpower' : second.powerUp = (rcaBody first).powerUp := by rw [hregs, hpower]
  have hagree : (rcaCells second).EqOn (Sys.cell { second with DM := (rcaBody first).DM }) second.cell :=
    fun addr hm =>
      calc Sys.cell { second with DM := (rcaBody first).DM } addr
          = (rcaBody first).cell addr := cell_withMemory hpower' addr
        _ = first.cell addr := rcaBody_eqOn_of_apart h1 ha hb hm
        _ = second.cell addr := (cell_congr hDM hpower addr).symm
  exact ⟨rcaBody first, rcaBody second, _, exec_rca_of_ready h1, exec_rca_of_ready h2,
    exec_rca_of_ready (h2.withMemory _), rcaBody_eqOn h2.length rfl rfl rfl rfl hagree⟩

/-- Settles O51: every register of the reset state is the zero of its width. -/
theorem resetValues : Obligations.ResetValues := fun b =>
  have digit : (0 : Digit b.W).toNat = 0 := Nat.zero_mod _
  have addr : (0 : BitVec b.AW).toNat = 0 := Nat.zero_mod _
  ⟨digit, digit, digit, digit, rfl, addr, addr, addr, addr, addr, rfl, rfl, rfl⟩

/-- Settles O52: nothing is listed in `DM` yet, and `STATUS` is 0. -/
theorem resetMeetsTheInvariant : Obligations.ResetMeetsTheInvariant where
  canonical := .nil
  cells := nofun
  status := Nat.zero_le 4

end Sys2Proof.Machine
end

section
/-!
PROOFS. The statements on spec/20_memory.md: the order of the accesses that the sequence commands make (R43, R49), and a
read after a write by the host (R39, R44).
-/

namespace Sys2Proof.Machine

variable {b : Build}

/-! ### Accesses of the sequence commands (R43, R49) -/

/-- `IDX` holds the index at which the upper carry loop stopped: no index up to a length wraps (R19). -/
theorem finish_suffixLoop_IDX_toNat (pa : BitVec b.AW) {len : BitVec b.AW} {i : Nat} (hi : i ≤ len.toNat)
    (carry : Bool) (s : Sys b) :
    (finish (suffixLoop pa (len.toNat - i) i carry s)).IDX.toNat =
      (suffixLoop pa (len.toNat - i) i carry s).index := by
  obtain ⟨-, htop, -⟩ := suffixLoop_index pa (len.toNat - i) i carry s
  exact index_toNat (len := len) (by omega)

/-- The end that both commands share accesses the positions from `i` to below `IDX`, in order (R90, R101, R106). -/
theorem finish_suffixLoop_accesses (pa : BitVec b.AW) {len : BitVec b.AW} {i : Nat} (hi : i ≤ len.toNat)
    (carry : Bool) (s : Sys b) :
    (finish (suffixLoop pa (len.toNat - i) i carry s)).accesses =
      s.accesses ++
        (List.range ((finish (suffixLoop pa (len.toNat - i) i carry s)).IDX.toNat - i)).flatMap
          fun k => suffixAccesses pa (i + k) := by
  rw [finish_suffixLoop_IDX_toNat pa hi, finish_accesses, suffixLoop_accesses, List.range'_eq_map_range,
    List.flatMap_map]

theorem rcaBody_accesses {s : Sys b} (hlen : s.NB.toNat ≤ s.NA.toNat) :
    (rcaBody s).accesses =
      s.accesses ++ (List.range s.NB.toNat).flatMap (prefixAccesses s.PA s.PB) ++
        (List.range ((rcaBody s).IDX.toNat - s.NB.toNat)).flatMap
          fun k => suffixAccesses s.PA (s.NB.toNat + k) := by
  have hprefix := prefixLoop_accesses s.PA s.PB s.NB.toNat 0 false s
  rw [← List.range_eq_range'] at hprefix
  rw [← hprefix]
  exact finish_suffixLoop_accesses s.PA hlen _ _

theorem ccpBody_accesses {s : Sys b} (hlen : s.NB.toNat ≤ s.NA.toNat) :
    (ccpBody s).accesses =
      s.accesses ++
        (List.range ((ccpBody s).IDX.toNat - s.NB.toNat)).flatMap
          fun k => suffixAccesses s.PA (s.NB.toNat + k) :=
  finish_suffixLoop_accesses s.PA hlen s.CF s

/-! ### The host's accesses (R39, R44) -/

section HostAccesses

variable {s : Sys b} {addr : Nat} {rest : List (HostLine b.W)}

/-- `MW` replaces the digit of its cell and no other, and takes its line from the host's list (R110). -/
theorem step_mw_of_cell {v : Digit b.W} (hp : s.pending = .mw addr v :: rest) (h : addr < b.memDigits) :
    ∃ t : Sys b, step ⟨b, s⟩ = .next ⟨b, t⟩ ∧ (∀ x, t.cell x = if x = addr then v else s.cell x) ∧
      t = { s with DM := t.DM, pending := rest } :=
  ⟨_, (step_of_pending_cons hp).trans (hostWrite_of_cell v h), memWrite_cell addr v s, rfl⟩

theorem step_mr_of_cell (hp : s.pending = .mr addr :: rest) (h : addr < b.memDigits) :
    step ⟨b, s⟩ =
      .next ⟨b, { s with pending := rest, returned := s.returned ++ [⟨b.W, s.cell addr⟩] }⟩ :=
  (step_of_pending_cons hp).trans (hostRead_of_cell h)

end HostAccesses

/-! ### The statements -/

/-- Settles O25: the prefix loop makes the first group of accesses, the upper carry loop the second. -/
theorem rcaAccessesInOrder : Obligations.RcaAccessesInOrder := fun _ s h =>
  ⟨rcaBody s, exec_rca_of_ready h, rcaBody_accesses h.length⟩

/-- Settles O31: the upper carry loop makes all accesses. -/
theorem ccpAccessesInOrder : Obligations.CcpAccessesInOrder := fun _ s h =>
  ⟨ccpBody s, exec_ccp_of_ready h, ccpBody_accesses h.length⟩

/-- Settles O49: the two reads return the cells of the memory that the write left. -/
theorem mrAfterMwReturnsTheValue : Obligations.MrAfterMwReturnsTheValue := by
  intro b s addr other v rest haddr hother hp
  obtain ⟨t, hmw, hcell, hframe⟩ := step_mw_of_cell hp haddr
  have hpending : t.pending = .mr addr :: .mr other :: rest := (congrArg Sys.pending hframe :)
  have hreturned : t.returned = s.returned := (congrArg Sys.returned hframe :)
  refine ⟨_, _, _, hmw, step_mr_of_cell hpending haddr, step_mr_of_cell rfl hother, ?_⟩
  -- The first read leaves the cells alone, so both reads see those of `t`.
  change t.returned ++ [⟨b.W, t.cell addr⟩] ++ [⟨b.W, t.cell other⟩] = _
  rw [hreturned, hcell, hcell, if_pos rfl, List.append_assoc, List.singleton_append]

end Sys2Proof.Machine
end

section
/-!
PROOFS. The statements on spec/30_encoding.md: the decoder and the encoder undo each other (R51 to R58, R61), how a step
takes a transaction off the port (R51, R53, R54), and what the transactions of the port do (R53, R61, R108, R109).
-/

namespace Sys2Proof.Machine

variable {b : Build}

/-! ### Command words (R56, R57, R58) -/

theorem opcodeMap_rows : ∀ row ∈ opcodeMap, row.mask = BitVec.allOnes 8 ∧ row.pattern = row.command.opcode := by
  decide

/-- The opcode map lists the opcode of each command, and compares all 8 bits. -/
theorem decodeCommand_eq_some_iff {word : BitVec 8} {c : Command} :
    decodeCommand word = some c ↔ word = c.opcode := by
  refine ⟨fun h => ?_, ?_⟩
  · obtain ⟨row, hfind, rfl⟩ := Option.map_eq_some_iff.1 h
    obtain ⟨hmask, hpattern⟩ := opcodeMap_rows row (List.mem_of_find?_eq_some hfind)
    have hmatch : word &&& row.mask = row.pattern := by simpa using List.find?_some hfind
    rwa [hmask, BitVec.and_allOnes, hpattern] at hmatch
  · rintro rfl
    cases c <;> rfl

@[simp] theorem decodeCommand_opcode (c : Command) : decodeCommand c.opcode = some c :=
  decodeCommand_eq_some_iff.2 rfl

theorem decodeCommand_eq_none_iff {word : BitVec 8} :
    decodeCommand word = none ↔ ∀ c : Command, word ≠ c.opcode := by
  simp only [Option.eq_none_iff_forall_ne_some, Ne, decodeCommand_eq_some_iff]

theorem isCommandWord_iff {v : Nat} : isCommandWord v = true ↔ ∃ c : Command, v = c.opcode.toNat := by
  simp only [isCommandWord, List.any_eq_true, beq_iff_eq]
  exact ⟨fun ⟨c, _, h⟩ => ⟨c, h⟩, fun ⟨c, h⟩ => ⟨c, by cases c <;> decide, h⟩⟩

theorem ofNat_eq_opcode_iff {v : Nat} (hv : v < 2 ^ 8) {c : Command} :
    BitVec.ofNat 8 v = c.opcode ↔ v = c.opcode.toNat := by
  rw [← BitVec.toNat_inj, BitVec.toNat_ofNat, Nat.mod_eq_of_lt hv]

/-! ### Transactions and their instructions (R51, R52, R53, R61) -/

@[simp] theorem index_ofIndex (idx : BitVec 4) : (Reg.ofIndex idx).index = idx := by
  revert idx
  decide

theorem encode_instr (b : Build) (c : Command) : encode b c.instr = writeTransaction b .CMD c.opcode.toNat := by
  cases c <;> rfl

theorem wellFormed_instr (b : Build) (c : Command) : c.instr.wellFormed b = true := by
  cases c <;> rfl

theorem wellFormed_wr_iff {r : Reg} {v : Nat} :
    Instr.wellFormed b (.wr r v) = true ↔
      v < 2 ^ r.width b ∧ (r = .CMD → ∀ c : Command, v ≠ c.opcode.toNat) := by
  simp [Instr.wellFormed, ← Bool.not_eq_true, isCommandWord_iff, imp_iff_not_or]

@[simp] theorem decodeWrite_opcode (c : Command) : decodeWrite .CMD c.opcode.toNat = c.instr := by
  cases c <;> rfl

/-- Everything a write can decode to: the command of a command word written to `CMD`, or else itself (R61, R63). -/
theorem decodeWrite_cases {r : Reg} {v : Nat} (hv : v < 2 ^ r.width b) :
    (∃ c : Command, r = .CMD ∧ v = c.opcode.toNat) ∨
      (Instr.wellFormed b (.wr r v) = true ∧ decodeWrite r v = .wr r v) := by
  by_cases hr : r = .CMD
  · subst hr
    cases hc : decodeCommand (BitVec.ofNat 8 v) with
    | some c => exact .inl ⟨c, rfl, (ofNat_eq_opcode_iff hv).1 (decodeCommand_eq_some_iff.1 hc)⟩
    | none =>
      have hplain (c : Command) : v ≠ c.opcode.toNat :=
        mt (ofNat_eq_opcode_iff hv).2 (decodeCommand_eq_none_iff.1 hc c)
      exact .inr ⟨wellFormed_wr_iff.2 ⟨hv, fun _ => hplain⟩, by simp only [decodeWrite, if_true, hc]⟩
  · exact .inr ⟨wellFormed_wr_iff.2 ⟨hv, fun h => absurd h hr⟩, if_neg hr⟩

theorem decode_writeTransaction {r : Reg} {v : Nat} (hv : v < 2 ^ r.width b) :
    decode b (writeTransaction b r v) = .ok (decodeWrite r v) := by
  simp [decode, writeTransaction, Laws.ofIndex_index, Nat.mod_eq_of_lt hv]

theorem decode_encode_instr (b : Build) (c : Command) : decode b (encode b c.instr) = .ok c.instr := by
  rw [encode_instr, decode_writeTransaction c.opcode.isLt, decodeWrite_opcode]

theorem decode_encode_wr {r : Reg} {v : Nat} (hwf : Instr.wellFormed b (.wr r v) = true) :
    decode b (encode b (.wr r v)) = .ok (.wr r v) := by
  obtain ⟨hv, hplain⟩ := wellFormed_wr_iff.1 hwf
  rcases decodeWrite_cases hv with ⟨c, hr, hword⟩ | ⟨-, hself⟩
  · exact absurd hword (hplain hr c)
  · exact (decode_writeTransaction hv).trans (congrArg Except.ok hself)

theorem decode_encode_rd (b : Build) (r : Reg) : decode b (encode b (.rd r)) = .ok (.rd r) :=
  congrArg (fun r => Except.ok (Instr.rd r)) (Laws.ofIndex_index r)

/-- Everything that decodes: a read of some register, or a write of a value that fits in one. -/
theorem decode_ok_cases {t : Transaction} {i : Instr} (h : decode b t = .ok i) :
    (∃ r : Reg, t = encode b (.rd r) ∧ i = .rd r) ∨
      ∃ (r : Reg) (v : Nat), v < 2 ^ r.width b ∧ t = writeTransaction b r v ∧ i = decodeWrite r v := by
  obtain ⟨we, idx, data⟩ := t
  have hidx := index_ofIndex idx
  cases we with
  | false =>
    cases data with
    | none => cases h; exact .inl ⟨Reg.ofIndex idx, by rw [encode, hidx], rfl⟩
    | some d => cases h
  | true =>
    cases data with
    | none => cases h
    | some d =>
      obtain ⟨width, bits⟩ := d
      by_cases hw : width = (Reg.ofIndex idx).width b
      · subst hw
        have hi : decodeWrite (Reg.ofIndex idx) bits.toNat = i := Except.ok.inj ((if_pos rfl).symm.trans h)
        have ht : writeTransaction b (Reg.ofIndex idx) bits.toNat = ⟨true, idx, some ⟨_, bits⟩⟩ := by
          rw [writeTransaction, hidx, BitVec.ofNat_toNat, BitVec.setWidth_eq]
        exact .inr ⟨_, _, bits.isLt, ht.symm, hi.symm⟩
      · cases (if_neg hw).symm.trans h

/-! ### Transactions that run (R8, R53, R54, R108, R109) -/

section Running

variable (s : Sys b)

theorem exec_rd (r : Reg) :
    exec (.rd r) ⟨b, s⟩ =
      .next ⟨b, { s with returned := s.returned ++ [⟨r.width b, readReg s r⟩] }⟩ := rfl

theorem exec_wr_cmd {v : Nat} (hv : v < 2 ^ 8) :
    exec (.wr .CMD v) ⟨b, s⟩ = .next ⟨b, issue (commandWord (BitVec.ofNat 8 v)) s⟩ :=
  exec_wr_of_fits (reg := .CMD) hv

theorem commandWord_opcode (c : Command) : commandWord (b := b) c.opcode = commandEffect c :=
  funext (commandWord_of_some (decodeCommand_opcode c))

/-- A command's mnemonic and the write of its word to `CMD` have the same effect (R61). -/
theorem exec_wr_opcode (c : Command) : exec (.wr .CMD c.opcode.toNat) ⟨b, s⟩ = exec c.instr ⟨b, s⟩ := by
  rw [exec_wr_cmd s c.opcode.isLt, BitVec.ofNat_toNat, BitVec.setWidth_eq, commandWord_opcode, exec_instr]

/-- A running block takes `ILLEGAL` for every other word (R57, R121). -/
theorem exec_wr_illegal (hs : s.halted = false) {v : Nat} (hv : v < 2 ^ 8)
    (hc : ∀ c : Command, v ≠ c.opcode.toNat) :
    exec (.wr .CMD v) ⟨b, s⟩ = .next ⟨b, raise .illegalFault s⟩ := by
  have hnone : decodeCommand (BitVec.ofNat 8 v) = none :=
    decodeCommand_eq_none_iff.2 fun c => mt (ofNat_eq_opcode_iff hv).1 (hc c)
  rw [exec_wr_cmd s hv, issue_of_running hs, commandWord_of_none hnone]

theorem step_giveTransaction {t : Transaction} {i : Instr} (h : decode b t = .ok i) :
    step ⟨b, giveTransaction t s⟩ = exec i ⟨b, s⟩ :=
  (step_of_pending_cons (s := giveTransaction t s) rfl).trans (runLine_port_of_decode h)

end Running

/-! ### The statements -/

/-- Settles O1, by cases on the instruction. -/
theorem decodeOfEncode : Obligations.DecodeOfEncode := by
  intro b i hwf
  cases i with
  | dadc => exact decode_encode_instr b .dadc
  | dmac => exact decode_encode_instr b .dmac
  | rca => exact decode_encode_instr b .rca
  | ccp => exact decode_encode_instr b .ccp
  | wr r v => exact decode_encode_wr hwf
  | rd r => exact decode_encode_rd b r

/-- Settles O2, by what a transaction that decodes can be; a write is a command's word or decodes to itself. -/
theorem encodeOfDecode : Obligations.EncodeOfDecode := by
  intro b t i h
  rcases decode_ok_cases h with ⟨r, rfl, rfl⟩ | ⟨r, v, hv, rfl, rfl⟩
  · exact ⟨rfl, rfl⟩
  · rcases decodeWrite_cases hv with ⟨c, rfl, rfl⟩ | ⟨hwf, hself⟩
    · rw [decodeWrite_opcode]
      exact ⟨encode_instr b c, wellFormed_instr b c⟩
    · rw [hself]
      exact ⟨rfl, hwf⟩

/-- Settles O37: `issue` ignores the write while halted; a running block does what the word's decoding says. -/
theorem cmdWriteIssuesCommand : Obligations.CmdWriteIssuesCommand := by
  refine fun b s v hv => ⟨fun hs => ?_, fun hs => ?_⟩
  · rw [exec_wr_cmd s hv, issue_of_halted hs]
  · split_ifs with h1 h2 h3 h4
    · exact h1 ▸ exec_wr_opcode s .dadc
    · exact h2 ▸ exec_wr_opcode s .dmac
    · exact h3 ▸ exec_wr_opcode s .rca
    · exact h4 ▸ exec_wr_opcode s .ccp
    · have hillegal (c : Command) : v ≠ c.opcode.toNat := c.casesOn h1 h2 h3 h4
      exact ⟨_, exec_wr_illegal s hs hv hillegal, raise_fault _ s, rfl⟩

/-- Settles O3: the opcode map selects a command exactly for its opcode. -/
theorem fourOpcodesAreDefined : Obligations.FourOpcodesAreDefined := by
  intro v
  split_ifs with h1 h2 h3 h4
  · exact decodeCommand_eq_some_iff.2 h1
  · exact decodeCommand_eq_some_iff.2 h2
  · exact decodeCommand_eq_some_iff.2 h3
  · exact decodeCommand_eq_some_iff.2 h4
  · exact decodeCommand_eq_none_iff.2 fun c => c.casesOn h1 h2 h3 h4

/-- Settles O4: each listed transaction is what its instruction encodes to. -/
theorem listedTransactionsDecode : Obligations.ListedTransactionsDecode :=
  ⟨decode_dadc_word _, decode_dmac_word _, decode_rca_word _, decode_ccp_word _,
    decode_encode_wr (b := Config.build32) (r := .CMD) (v := 0x05) rfl,
    decode_wr_word,
    decode_encode_wr (b := Config.build32) (r := .CF) (v := 1) rfl,
    decode_encode_wr (b := Config.build32) (r := .NB) (v := 3) rfl,
    decode_encode_wr (b := Config.build32) (r := .reserved 0) (v := 0x55) rfl,
    decode_encode_wr (b := Config.build64) (r := .K) (v := 0x8877665544332211) rfl,
    decode_encode_rd _ .A, decode_rd_word _, decode_encode_rd _ .STATUS⟩

/-- Settles O5: the two spellings encode alike by definition, and `exec_wr_opcode` says that they act alike. -/
theorem commandMnemonicsAreCmdWrites : Obligations.CommandMnemonicsAreCmdWrites := fun _ =>
  ⟨⟨rfl, rfl⟩, ⟨rfl, rfl⟩, ⟨rfl, rfl⟩, ⟨rfl, rfl⟩, fun s =>
    ⟨(exec_wr_opcode s .dadc).symm, (exec_wr_opcode s .dmac).symm, (exec_wr_opcode s .rca).symm,
      (exec_wr_opcode s .ccp).symm⟩⟩

/-- Settles O7: the step runs the head of the list, and running a transaction that does not decode refuses it. -/
theorem stepRefusesUndecodableTransaction : Obligations.StepRefusesUndecodableTransaction :=
  fun _ _ _ _ _ hp hd => (step_of_pending_cons hp).trans (runLine_port_of_reject hd)

/-- Settles O9: taking the line that was just given leaves the original state. -/
theorem stepRunsFetchWord : Obligations.StepRunsFetchWord := fun s _ _ _ h => step_giveTransaction s.sys h

/-- Settles O44: `exec_rd` at each of the eleven registers. -/
theorem rdReturnsTheRegister : Obligations.RdReturnsTheRegister := fun _ s =>
  ⟨fun _ => rfl, exec_rd s .A, exec_rd s .B, exec_rd s .C, exec_rd s .K, exec_rd s .CF, exec_rd s .PA, exec_rd s .NA,
    exec_rd s .PB, exec_rd s .NB, exec_rd s .IDX, exec_rd s .STATUS⟩

/-- Settles O46: the value fails the check of `execWr`. -/
theorem tooWideWrIsRefused : Obligations.TooWideWrIsRefused := fun _ _ _ h => exec_wr_of_tooWide (Nat.not_lt.2 h)

end Sys2Proof.Machine
end

section
/-!
PROOFS. The statements on spec/40_digit_add_with_carry.md: `DADC` computes the one solution of the equation of R66 (R66,
R68, R72), at most one of its two additions overflows (R69, R70), and it writes `A` and `CF` alone (R71).
-/

namespace Sys2Proof.Machine

/-! ### The equation of R66 and its one solution -/

section DigitAdd

variable {W : Nat}

/-- The digit and the carry of `dadc` are the one solution of the equation of R66. -/
theorem dadc_eq_iff (hW : 1 ≤ W) {x y r : Digit W} {c d : Bool} :
    dadc x y c = (r, d) ↔ r.toNat + d.toNat * 2 ^ W = x.toNat + y.toNat + c.toNat := by
  have hexact := dadc_toNat hW x y c
  refine ⟨fun h => ?_, fun h => ?_⟩
  · rwa [h] at hexact
  · obtain ⟨hr, hd⟩ := digit_carry_unique (hexact.trans h.symm)
    exact Prod.ext hr hd

theorem digit_add_carry_le (x y : Digit W) (c : Bool) :
    x.toNat + y.toNat + c.toNat ≤ 2 ^ (W + 1) - 1 := by
  have hx := x.isLt
  have hy := y.isLt
  have hc := Bool.toNat_le c
  rw [Nat.pow_succ]
  omega

theorem dadc_digit_toNat (hW : 1 ≤ W) (x y : Digit W) (c : Bool) :
    (dadc x y c).1.toNat = (x.toNat + y.toNat + c.toNat) % 2 ^ W := by
  rw [← dadc_toNat hW, Nat.add_mul_mod_self_right, Nat.mod_eq_of_lt (dadc x y c).1.isLt]

theorem dadc_carry_eq_true_iff (hW : 1 ≤ W) (x y : Digit W) (c : Bool) :
    (dadc x y c).2 = true ↔ 2 ^ W ≤ x.toNat + y.toNat + c.toNat := by
  have hdigit := (dadc x y c).1.isLt
  rw [← dadc_toNat hW]
  cases (dadc x y c).2 with
  | false => simpa using hdigit
  | true => simp

theorem dadc_comm (hW : 1 ≤ W) (x y : Digit W) (c : Bool) : dadc x y c = dadc y x c := by
  rw [dadc_eq_iff hW, dadc_toNat hW, Nat.add_comm y.toNat]

/-! ### The widened form (R68) -/

theorem dadcSum_toNat (hW : 1 ≤ W) (x y : Digit W) (c : Bool) :
    (dadcSum x y c).toNat = x.toNat + y.toNat + c.toNat := by
  have hroom : 2 ^ (W + 1) ≤ 2 ^ (2 * W) := Nat.pow_le_pow_right (by decide) (by omega)
  have hle := digit_add_carry_le x y c
  have hpos : 0 < 2 ^ (W + 1) := Nat.two_pow_pos _
  have hzext (z : Digit W) : (z.setWidth (2 * W)).toNat = z.toNat := BitVec.toNat_setWidth_of_le (by omega)
  rw [dadcSum, BitVec.toNat_add, BitVec.toNat_add, hzext, hzext, hzext, carryDigit_toNat hW, Nat.mod_add_mod,
    Nat.mod_eq_of_lt (by omega)]

/-- The sum is below `2^(W+1)`, so its quotient by `2^W` is 0 or 1. -/
theorem dadcSum_div_lt_two (hW : 1 ≤ W) (x y : Digit W) (c : Bool) : (dadcSum x y c).toNat / 2 ^ W < 2 := by
  have hle := digit_add_carry_le x y c
  have hpos : 0 < 2 ^ W := Nat.two_pow_pos _
  rw [Nat.pow_succ] at hle
  rw [dadcSum_toNat hW]
  exact Nat.div_lt_of_lt_mul (by omega)

theorem dadcWide_digit_toNat (x y : Digit W) (c : Bool) :
    (dadcWide x y c).1.toNat = (dadcSum x y c).toNat % 2 ^ W := by
  rw [dadcWide, BitVec.extractLsb'_toNat, Nat.shiftRight_zero]

theorem dadcWide_carry_toNat (hW : 1 ≤ W) (x y : Digit W) (c : Bool) :
    (dadcWide x y c).2.toNat = (dadcSum x y c).toNat / 2 ^ W := by
  rw [dadcWide, ← BitVec.testBit_toNat, Nat.toNat_testBit, Nat.mod_eq_of_lt (dadcSum_div_lt_two hW x y c)]

theorem dadcSum_high_toNat (hW : 1 ≤ W) (x y : Digit W) (c : Bool) :
    ((dadcSum x y c).extractLsb' W W).toNat = (dadcSum x y c).toNat / 2 ^ W := by
  have hdigit : (dadcSum x y c).toNat / 2 ^ W < 2 ^ W :=
    (dadcSum_div_lt_two hW x y c).trans_le (Nat.pow_le_pow_right (n := 2) (by decide) hW)
  rw [BitVec.extractLsb'_toNat, Nat.shiftRight_eq_div_pow, Nat.mod_eq_of_lt hdigit]

theorem dadcWide_toNat (hW : 1 ≤ W) (x y : Digit W) (c : Bool) :
    (dadcWide x y c).1.toNat + (dadcWide x y c).2.toNat * 2 ^ W = x.toNat + y.toNat + c.toNat := by
  rw [dadcWide_digit_toNat, dadcWide_carry_toNat hW, Nat.mod_add_div', dadcSum_toNat hW]

/-! ### The two additions (R69, R70) -/

theorem addc_sum_le_of_overflow {x y : Digit W} (h : (addc x y).2 = true) : (addc x y).1.toNat ≤ 2 ^ W - 2 := by
  have hx := x.isLt
  have hy := y.isLt
  have hexact := addc_toNat x y
  rw [h, Bool.toNat_true] at hexact
  omega

theorem addc_carry_eq_false_of_lt {x y : Digit W} (h : x.toNat + y.toNat < 2 ^ W) : (addc x y).2 = false :=
  decide_eq_false (Nat.not_le.2 h)

theorem dadc_carry_of_overflow {x y : Digit W} (h : (addc x y).2 = true) (c : Bool) : (dadc x y c).2 = true := by
  simp only [dadc, h, if_true]

theorem dadc_of_fits {x y : Digit W} (h : (addc x y).2 = false) (c : Bool) :
    dadc x y c = addc (addc x y).1 (carryDigit W c) := by
  simp only [dadc, h, Bool.false_eq_true, if_false]

theorem dadc_carry_eq_or (x y : Digit W) (c : Bool) :
    (dadc x y c).2 = ((addc x y).2 || (addc (addc x y).1 (carryDigit W c)).2) := by
  cases h : (addc x y).2 with
  | false => rw [dadc_of_fits h, Bool.false_or]
  | true => rw [dadc_carry_of_overflow h, Bool.true_or]

/-! ### The largest digit (R72) -/

theorem maxDigit_toNat : (maxDigit W).toNat = 2 ^ W - 1 := BitVec.toNat_allOnes

theorem maxDigit_sub_toNat (x : Digit W) : (maxDigit W - x).toNat = 2 ^ W - 1 - x.toNat := by
  rw [maxDigit, BitVec.allOnes_sub_eq_not, BitVec.toNat_not]

end DigitAdd

/-! ### The command (R67, R71) -/

section Command

variable {b : Build} {s : Sys b}

theorem exec_dadc_of_running (h : s.halted = false) : exec .dadc ⟨b, s⟩ = .next ⟨b, dadcCommand s⟩ :=
  (exec_instr .dadc s).trans (by rw [issue_of_running h, commandEffect])

/-- `DADC` leaves all but `A` and `CF`, halted or not. -/
theorem issue_dadcCommand_frame (s : Sys b) :
    issue dadcCommand s = { s with A := (issue dadcCommand s).A, CF := (issue dadcCommand s).CF } := by
  rcases issue_cases dadcCommand s with ⟨-, h⟩ | ⟨-, h⟩ <;> rw [h]
  rfl

end Command

/-! ### The statements -/

/-- Settles O11: the command leaves the digit and the carry of `dadc`. -/
theorem dadcAddsExactly : Obligations.DadcAddsExactly := fun b s h =>
  ⟨dadcCommand s, exec_dadc_of_running h, dadc_toNat b.W_pos s.A s.B s.CF, dadc_digit_toNat b.W_pos s.A s.B s.CF,
    dadc_carry_eq_true_iff b.W_pos s.A s.B s.CF, digit_add_carry_le s.A s.B s.CF⟩

/-- Settles O13: both forms solve the equation of R66, which has one solution. -/
theorem dadcFormsAgree : Obligations.DadcFormsAgree := fun _ hW x y c =>
  ⟨(dadc_eq_iff hW).2 (dadcWide_toNat hW x y c), dadcSum_toNat hW x y c,
    (dadcSum_toNat hW x y c).trans_le (digit_add_carry_le x y c),
    (dadcSum_high_toNat hW x y c).trans (dadcWide_carry_toNat hW x y c).symm⟩

/-- Settles O14: an overflowing sum is at most `2^W - 2`, and the carry adds at most 1 to it. -/
theorem dadcFirstOverflowLeavesRoom : Obligations.DadcFirstOverflowLeavesRoom := by
  refine fun W hW x y c => ⟨fun h => ?_, dadc_carry_eq_or x y c⟩
  have hsum := addc_sum_le_of_overflow h
  have hc := Bool.toNat_le c
  have htwo : 2 ≤ 2 ^ W := Nat.le_self_pow (Nat.ne_of_gt hW) 2
  have hroom : (addc x y).1.toNat + c.toNat ≤ 2 ^ W - 1 := by omega
  refine ⟨hsum, hroom, addc_carry_eq_false_of_lt ?_⟩
  rw [carryDigit_toNat hW]
  omega

/-- Settles O15: each row but the last two says that its result solves the equation of R66. -/
theorem dadcCornerCases : Obligations.DadcCornerCases := by
  intro W hW
  have htwo : 2 ≤ 2 ^ W := Nat.le_self_pow (Nat.ne_of_gt hW) 2
  have hzero : (0 : Digit W).toNat = 0 := BitVec.toNat_zero
  have hone : (1 : Digit W).toNat = 1 := BitVec.toNat_one hW
  have hmax := maxDigit_toNat (W := W)
  have hpred : (maxDigit W - 1).toNat = 2 ^ W - 1 - 1 := by rw [maxDigit_sub_toNat, hone]
  have hcompl (x : Digit W) : x.toNat + (maxDigit W - x).toNat = 2 ^ W - 1 := by
    rw [maxDigit_sub_toNat, Nat.add_sub_of_le (Nat.le_sub_one_of_lt x.isLt)]
  refine ⟨?_, ?_, ?_, ?_, ?_, ?_, fun x y c => ⟨?_, ?_, dadc_zero_false hW x, dadc_comm hW x y c⟩⟩
  all_goals
    simp only [dadc_eq_iff hW, hcompl, Bool.toNat_true, Bool.toNat_false]
    omega

/-- Settles O12: a halted block ignores the command, and a running one gets a new `A` and `CF`. -/
theorem dadcWritesOnlyAAndCF : Obligations.DadcWritesOnlyAAndCF := fun _ s =>
  ⟨issue dadcCommand s, exec_instr .dadc s, issue_dadcCommand_frame s,
    fun addr => cell_congr (congrArg Sys.DM (issue_dadcCommand_frame s) :)
      (congrArg Sys.powerUp (issue_dadcCommand_frame s) :) addr,
    issue_of_halted⟩

end Sys2Proof.Machine
end

section
/-!
PROOFS. The statements on spec/41_digit_multiply_add_with_carry.md: `DMAC` computes the one solution of the equation of
R75 (R75, R81), its accumulator never overflows (R77), its two-limb form computes the same digits (R79), and it writes
`A` and `K` alone (R80).
-/

namespace Sys2Proof.Machine

/-! ### The equation of R75 and its one solution -/

section DigitMultiplyAdd

variable {W : Nat}

/-- Two digits are the remainder and the quotient of the number they stand for. -/
theorem digits_toNat {r d : Digit W} {n : Nat} (h : r.toNat + d.toNat * 2 ^ W = n) :
    r.toNat = n % 2 ^ W ∧ d.toNat = n / 2 ^ W := by
  subst h
  rw [Nat.add_mul_mod_self_right, Nat.add_mul_div_right _ _ (Nat.two_pow_pos W), Nat.mod_eq_of_lt r.isLt,
    Nat.div_eq_of_lt r.isLt, Nat.zero_add]
  exact ⟨rfl, rfl⟩

/-- The two digits of `dmac` are the one solution of the equation of R75. -/
theorem dmac_eq_iff {a b c k r d : Digit W} :
    dmac a b c k = (r, d) ↔ r.toNat + d.toNat * 2 ^ W = a.toNat + b.toNat * c.toNat + k.toNat := by
  have hexact := dmac_toNat a b c k
  refine ⟨fun h => by rwa [h] at hexact, fun h => ?_⟩
  obtain ⟨hdigit, hcarry⟩ := digits_toNat hexact
  obtain ⟨hr, hd⟩ := digits_toNat h
  exact Prod.ext (BitVec.eq_of_toNat_eq (hdigit.trans hr.symm)) (BitVec.eq_of_toNat_eq (hcarry.trans hd.symm))

theorem dmac_comm (a b c k : Digit W) : dmac a b c k = dmac a c b k := by
  rw [dmac_eq_iff, dmac_toNat, Nat.mul_comm c.toNat]

/-! ### The bound of the accumulator (R77) -/

theorem multiply_add_lt (a b c k : Digit W) : a.toNat + b.toNat * c.toNat + k.toNat < 2 ^ (2 * W) :=
  dmacSum_toNat a b c k ▸ (dmacSum a b c k).isLt

/-- The base in terms of the largest digit, so that the arithmetic of R77 and R81 is in one unknown. -/
theorem two_pow_eq_maxDigit_add_one : 2 ^ W = (maxDigit W).toNat + 1 := by
  rw [maxDigit_toNat, Nat.sub_add_cancel (Nat.two_pow_pos W)]

theorem dmacSum_maxDigit_toNat :
    (dmacSum (maxDigit W) (maxDigit W) (maxDigit W) (maxDigit W)).toNat = 2 ^ (2 * W) - 1 := by
  refine (dmacSum_toNat _ _ _ _).trans (Nat.eq_sub_of_add_eq ?_)
  rw [Nat.two_mul, Nat.pow_add, two_pow_eq_maxDigit_add_one]
  ring

theorem dmac_maxDigit :
    dmac (maxDigit W) (maxDigit W) (maxDigit W) (maxDigit W) = (maxDigit W, maxDigit W) := by
  rw [dmac_eq_iff, two_pow_eq_maxDigit_add_one]
  ring

/-! ### The two-limb form (R79) -/

/-- The high digit of the two-limb form, before it is cut to `W` bits. -/
def limbsHigh (a b c k : Digit W) : Nat :=
  (mulwide b c).1.toNat + (addc (mulwide b c).2 a).2.toNat + (addc (addc (mulwide b c).2 a).1 k).2.toNat

/-- The equation of R79: each carry that an addition drops is counted in the high digit. -/
theorem dmacLimbs_low_add_limbsHigh (a b c k : Digit W) :
    (dmacLimbs a b c k).1.toNat + limbsHigh a b c k * 2 ^ W = a.toNat + b.toNat * c.toNat + k.toNat := by
  have hproduct := mulwide_toNat b c
  have hwithA := addc_toNat (mulwide b c).2 a
  have hwithK := addc_toNat (addc (mulwide b c).2 a).1 k
  simp only [dmacLimbs, limbsHigh, Nat.add_mul]
  omega

theorem limbsHigh_lt (a b c k : Digit W) : limbsHigh a b c k < 2 ^ W := by
  have hexact := dmacLimbs_low_add_limbsHigh a b c k
  have htotal := multiply_add_lt a b c k
  rw [Nat.two_mul, Nat.pow_add] at htotal
  exact Nat.lt_of_mul_lt_mul_right (a := 2 ^ W) (by omega)

theorem dmacLimbs_high_toNat (hW : 1 ≤ W) (a b c k : Digit W) :
    (dmacLimbs a b c k).2.toNat = limbsHigh a b c k := by
  rw [← Nat.mod_eq_of_lt (limbsHigh_lt a b c k), dmacLimbs, limbsHigh]
  simp only [BitVec.toNat_add, carryDigit_toNat hW, Nat.mod_add_mod]

theorem dmac_eq_dmacLimbs (hW : 1 ≤ W) (a b c k : Digit W) : dmac a b c k = dmacLimbs a b c k :=
  dmac_eq_iff.2 (dmacLimbs_high_toNat hW a b c k ▸ dmacLimbs_low_add_limbsHigh a b c k)

/-! ### Rows of the table of corner cases (R81) -/

/-! The statements write 0, 1 and 2 as numerals, not as the `BitVec` literals of the library lemmas. -/

theorem zero_toNat : (0 : Digit W).toNat = 0 := BitVec.toNat_zero

theorem one_toNat (hW : 1 ≤ W) : (1 : Digit W).toNat = 1 := BitVec.toNat_one hW

section WidthTwo

variable (hW : 2 ≤ W)
include hW

theorem two_toNat : (2 : Digit W).toNat = 2 :=
  Nat.mod_eq_of_lt (Nat.pow_lt_pow_right (m := 1) (Nat.lt_succ_self 1) hW)

theorem dmac_product_two_pow : dmac (0 : Digit W) 2 (BitVec.ofNat W (2 ^ (W - 1))) 0 = (0, 1) := by
  have hhalf : 2 ^ (W - 1) < 2 ^ W := Nat.pow_lt_pow_right (by decide) (by omega)
  have hdouble : 2 * 2 ^ (W - 1) = 2 ^ W := by
    rw [← Nat.pow_succ', Nat.succ_eq_add_one, Nat.sub_add_cancel (by omega)]
  rw [dmac_eq_iff, BitVec.toNat_ofNat, Nat.mod_eq_of_lt hhalf, two_toNat hW, hdouble, one_toNat (by omega),
    zero_toNat]
  omega

theorem dmac_both_low_additions_carry :
    dmac (maxDigit W) (maxDigit W) 1 (maxDigit W) = (maxDigit W - 2, 2) := by
  have hfour : 2 ^ 2 ≤ 2 ^ W := Nat.pow_le_pow_right (by decide) hW
  rw [dmac_eq_iff, maxDigit_sub_toNat, two_toNat hW, maxDigit_toNat, one_toNat (by omega)]
  omega

end WidthTwo

end DigitMultiplyAdd

/-! ### The command (R76, R80) -/

section Command

variable {b : Build} {s : Sys b}

theorem exec_dmac_of_running (h : s.halted = false) : exec .dmac ⟨b, s⟩ = .next ⟨b, dmacCommand s⟩ :=
  (exec_instr .dmac s).trans (by rw [issue_of_running h, commandEffect])

/-- `DMAC` leaves all but `A` and `K`, halted or not. -/
theorem issue_dmacCommand_frame (s : Sys b) :
    issue dmacCommand s = { s with A := (issue dmacCommand s).A, K := (issue dmacCommand s).K } := by
  rcases issue_cases dmacCommand s with ⟨-, h⟩ | ⟨-, h⟩ <;> rw [h]
  rfl

end Command

/-! ### The statements -/

/-- Settles O16: the command leaves the two digits of `dmac`. -/
theorem dmacMultiplyAddsExactly : Obligations.DmacMultiplyAddsExactly := fun _ s h =>
  ⟨dmacCommand s, exec_dmac_of_running h, dmac_toNat s.A s.B s.C s.K,
    digits_toNat (dmac_toNat s.A s.B s.C s.K)⟩

/-- Settles O18: the sum is the value of a `2W`-bit word, and the largest digits give the largest such word. -/
theorem dmacAccumulatorNeverOverflows : Obligations.DmacAccumulatorNeverOverflows := fun _ a b c k =>
  ⟨dmacSum_toNat a b c k, Nat.le_sub_one_of_lt (multiply_add_lt a b c k),
    Nat.le_sub_one_of_lt (dmac a b c k).2.isLt, dmacSum_maxDigit_toNat, dmac_maxDigit⟩

/-- Settles O19: the two-limb form solves the equation of R75, which has one solution. -/
theorem dmacTwoLimbFormAgrees : Obligations.DmacTwoLimbFormAgrees := fun _ hW a b c k =>
  ⟨dmac_eq_dmacLimbs hW a b c k, Nat.le_sub_one_of_lt (limbsHigh_lt a b c k)⟩

/-- Settles O20: each row but the last says that its result solves the equation of R75; with `MAX = P + 1` and
`2^W = P + 2` that is an identity in `P`. -/
theorem dmacCornerCases : Obligations.DmacCornerCases := by
  intro W hW
  have htwo : 2 ≤ 2 ^ W := Nat.le_self_pow (Nat.ne_of_gt hW) 2
  obtain ⟨P, hbase⟩ : ∃ P, 2 ^ W = P + 2 := ⟨2 ^ W - 2, by omega⟩
  have hmax : (maxDigit W).toNat = P + 1 := by rw [maxDigit_toNat, hbase]; rfl
  have hpred : (maxDigit W - 1).toNat = P := by rw [maxDigit_sub_toNat, one_toNat hW, hbase]; rfl
  refine ⟨?_, ?_, dmac_maxDigit, ?_, ?_, ?_, ?_,
    fun h2 => ⟨dmac_product_two_pow h2, dmac_both_low_additions_carry h2⟩,
    fun x y z k => ⟨?_, ?_, dmac_comm x y z k⟩⟩
  all_goals
    rw [dmac_eq_iff]
    simp only [zero_toNat, one_toNat hW, hmax, hpred, hbase]
    ring

/-- Settles O17: a halted block ignores the command, and a running one gets a new `A` and `K`. -/
theorem dmacWritesOnlyAAndK : Obligations.DmacWritesOnlyAAndK := fun _ s =>
  ⟨issue dmacCommand s, exec_instr .dmac s, issue_dmacCommand_frame s,
    fun addr => cell_congr (congrArg Sys.DM (issue_dmacCommand_frame s) :)
      (congrArg Sys.powerUp (issue_dmacCommand_frame s) :) addr,
    issue_of_halted⟩

end Sys2Proof.Machine
end

section
/-!
PROOFS. The statements on spec/42_ripple_carry_adder.md: `RCA` leaves the digits and the carry of the addition threaded
from index 0 up (R93), so it adds exactly (R84); where it stops (R91), what it leaves alone (R94, R95), that it does not
read `CF` (R88), and its edge cases (R92).
-/

namespace Sys2Proof.Machine

/-! ### The value of a sequence (R12) -/

section Value

variable {W : Nat}

theorem value_append (l r : List (Digit W)) : value (l ++ r) = value l + 2 ^ (W * l.length) * value r := by
  induction l with
  | nil => simp [value]
  | cons d l ih =>
    rw [List.cons_append, value, value, ih, List.length_cons, Nat.mul_succ, Nat.pow_add]
    ring

/-- The value of the digits `f 0`, …, `f (n - 1)`. -/
def valueUpTo (f : Nat → Digit W) (n : Nat) : Nat := value ((List.range n).map f)

theorem value_seq {b : Build} (s : Sys b) (base : BitVec b.AW) (len : Nat) :
    value (s.seq base len) = valueUpTo (fun i => s.cell (digitAddr base i)) len := rfl

@[simp] theorem valueUpTo_zero (f : Nat → Digit W) : valueUpTo f 0 = 0 := rfl

theorem valueUpTo_succ (f : Nat → Digit W) (n : Nat) :
    valueUpTo f (n + 1) = valueUpTo f n + 2 ^ (W * n) * (f n).toNat := by
  simp [valueUpTo, List.range_succ, value_append, value]

theorem valueUpTo_congr {f g : Nat → Digit W} {n : Nat} (h : ∀ i, i < n → f i = g i) :
    valueUpTo f n = valueUpTo g n :=
  congrArg value (List.map_congr_left fun i hi => h i (List.mem_range.1 hi))

/-- `n` digits stand for a number below `2^(W*n)`. -/
theorem valueUpTo_lt (f : Nat → Digit W) (n : Nat) : valueUpTo f n < 2 ^ (W * n) := by
  induction n with
  | zero => simp
  | succ n ih =>
    calc valueUpTo f (n + 1)
        = valueUpTo f n + 2 ^ (W * n) * (f n).toNat := valueUpTo_succ f n
      _ < 2 ^ (W * n) + 2 ^ (W * n) * (f n).toNat := Nat.add_lt_add_right ih _
      _ = 2 ^ (W * n) * ((f n).toNat + 1) := by ring
      _ ≤ 2 ^ (W * n) * 2 ^ W := Nat.mul_le_mul_left _ (f n).isLt
      _ = 2 ^ (W * (n + 1)) := by rw [← Nat.pow_add, Nat.mul_succ]

/-- Zeros above the top digit do not change a value. -/
theorem valueUpTo_of_zero_above {f : Nat → Digit W} {m n : Nat} (hmn : m ≤ n) (h : ∀ i, m ≤ i → f i = 0) :
    valueUpTo f n = valueUpTo f m := by
  induction n, hmn using Nat.le_induction with
  | base => rfl
  | succ n hn ih => rw [valueUpTo_succ, h n hn, zero_toNat, Nat.mul_zero, Nat.add_zero, ih]

/-- The addition threaded from index 0 up is exact at every length: each digit add is (R66), and its carry-out is the
next one's carry-in. -/
theorem chain_value (hW : 1 ≤ W) (x y : Nat → Digit W) (carryIn : Bool) (n : Nat) :
    valueUpTo (chainDigit x y carryIn) n + (chainCarry x y carryIn n).toNat * 2 ^ (W * n) =
      valueUpTo x n + valueUpTo y n + carryIn.toNat := by
  induction n with
  | zero => simp [chainCarry]
  | succ n ih =>
    have hdigit : (chainDigit x y carryIn n).toNat + (chainCarry x y carryIn (n + 1)).toNat * 2 ^ W =
        (x n).toNat + (y n).toNat + (chainCarry x y carryIn n).toNat := dadc_toNat hW _ _ _
    calc valueUpTo (chainDigit x y carryIn) (n + 1) + (chainCarry x y carryIn (n + 1)).toNat * 2 ^ (W * (n + 1))
        = valueUpTo (chainDigit x y carryIn) n + 2 ^ (W * n) *
            ((chainDigit x y carryIn n).toNat + (chainCarry x y carryIn (n + 1)).toNat * 2 ^ W) := by
          rw [valueUpTo_succ, Nat.mul_succ, Nat.pow_add]; ring
      _ = (valueUpTo (chainDigit x y carryIn) n + (chainCarry x y carryIn n).toNat * 2 ^ (W * n)) +
            2 ^ (W * n) * ((x n).toNat + (y n).toNat) := by rw [hdigit]; ring
      _ = valueUpTo x (n + 1) + valueUpTo y (n + 1) + carryIn.toNat := by
          rw [ih, valueUpTo_succ, valueUpTo_succ]; ring

/-- What an exact sum `v + c * M` with `v < M` says of its two parts and of the bound on it. -/
theorem exact_sum_parts {v M S : Nat} {c : Bool} (hv : v < M) (h : v + c.toNat * M = S) :
    v = S % M ∧ (c = true ↔ M ≤ S) ∧ S < M * 2 := by
  subst h
  refine ⟨?_, ?_⟩
  · rw [Nat.add_mul_mod_self_right, Nat.mod_eq_of_lt hv]
  · cases c <;> simp <;> omega

end Value

/-! ### The loops of a ready `RCA` (R89 to R91) -/

variable {b : Build}

/-- Digit `i` of `a`. -/
def aDigit (s : Sys b) (i : Nat) : Digit b.W := s.cell (digitAddr s.PA i)

/-- Digit `i` of `b`, extended with zeros (R93). -/
def bDigit (s : Sys b) (i : Nat) : Digit b.W := if i < s.NB.toNat then s.cell (digitAddr s.PB i) else 0

theorem bDigit_of_lt {s : Sys b} {i : Nat} (h : i < s.NB.toNat) : bDigit s i = s.cell (digitAddr s.PB i) := if_pos h

theorem bDigit_of_ge {s : Sys b} {i : Nat} (h : s.NB.toNat ≤ i) : bDigit s i = 0 := if_neg (Nat.not_lt.2 h)

/-- The carry into position `i` of the addition of `b` into `a`. -/
abbrev rcaCarry (s : Sys b) : Nat → Bool := chainCarry (aDigit s) (bDigit s) false

/-- The carry and the state that the prefix loop leaves. -/
abbrev rcaPrefix (s : Sys b) : Bool × Sys b := prefixLoop s.PA s.PB s.NB.toNat 0 false s

/-- Where the upper carry loop of a ready `RCA` ends, started with the chain's carry; `rcaBody_eq` ties it to the
command. -/
def rcaSuffix (s : Sys b) : LoopEnd b :=
  suffixLoop s.PA (s.NA.toNat - s.NB.toNat) s.NB.toNat (rcaCarry s s.NB.toNat) (rcaPrefix s).2

theorem suffixLoop_of_no_carry (pa : BitVec b.AW) (count i : Nat) (s : Sys b) :
    suffixLoop pa count i false s = ⟨i, false, s⟩ := by
  cases count <;> rfl

section Ready

variable {s : Sys b} (h : RcaReady s)
include h

theorem rcaPrefix_chain :
    (rcaPrefix s).1 = rcaCarry s s.NB.toNat ∧
    (∀ j, j < s.NB.toNat → (rcaPrefix s).2.cell (digitAddr s.PA j) = chainDigit (aDigit s) (bDigit s) false j) ∧
    (∀ addr, (∀ j, j < s.NB.toNat → addr ≠ digitAddr s.PA j) → (rcaPrefix s).2.cell addr = s.cell addr) := by
  have hlen := h.length
  have hdisjoint := h.apart
  have hapart (j k : Nat) (hj : j < s.NB.toNat) (hk : k < s.NB.toNat) : digitAddr s.PA j ≠ digitAddr s.PB k := by
    simp only [digitAddr]
    omega
  simpa [chainCarry] using prefixLoop_chain s.PA s.PB (aDigit s) (bDigit s) false s.NB.toNat 0 s
    (fun _ _ _ => rfl) (fun _ _ hj => (bDigit_of_lt (by omega)).symm)
    (fun j k _ hj _ hk => hapart j k (by omega) (by omega))

theorem rcaBody_eq : rcaBody s = finish (rcaSuffix s) := by
  rw [rcaBody, (rcaPrefix_chain h).1, rcaSuffix]

/-- The prefix loop leaves the digits of `a` above it as they were. -/
theorem rcaPrefix_above {j : Nat} (hj : s.NB.toNat ≤ j) :
    (rcaPrefix s).2.cell (digitAddr s.PA j) = aDigit s j :=
  (rcaPrefix_chain h).2.2 _ fun k hk => by rw [Ne, digitAddr_inj]; omega

theorem rcaSuffix_chain :
    (rcaSuffix s).carry = rcaCarry s s.NA.toNat ∧
    (∀ j, s.NB.toNat ≤ j → j < s.NA.toNat →
      (rcaSuffix s).state.cell (digitAddr s.PA j) = chainDigit (aDigit s) (bDigit s) false j) ∧
    (∀ addr, (∀ j, s.NB.toNat ≤ j → j < (rcaSuffix s).index → addr ≠ digitAddr s.PA j) →
      (rcaSuffix s).state.cell addr = (rcaPrefix s).2.cell addr) := by
  have hchain := suffixLoop_chain s.PA (aDigit s) (bDigit s) false (s.NA.toNat - s.NB.toNat) s.NB.toNat _
    (fun _ hj _ => rcaPrefix_above h hj) (fun _ => bDigit_of_ge)
  rwa [Nat.add_sub_cancel' h.length] at hchain

/-- `CF` is the carry into index `n` (R93). -/
theorem rcaBody_CF : (rcaBody s).CF = rcaCarry s s.NA.toNat := by
  rw [rcaBody_eq h]
  exact (rcaSuffix_chain h).1

/-- Every digit of `a` is the chain's: those below `m` from the prefix loop, the others from the upper carry loop
(R93). -/
theorem rcaBody_cell {i : Nat} (hi : i < s.NA.toNat) :
    (rcaBody s).cell (digitAddr s.PA i) = chainDigit (aDigit s) (bDigit s) false i := by
  obtain ⟨-, hprefix, -⟩ := rcaPrefix_chain h
  obtain ⟨-, hsuffix, hkept⟩ := rcaSuffix_chain h
  rw [rcaBody_eq h]
  rcases Nat.lt_or_ge i s.NB.toNat with hlow | hhigh
  · exact (hkept _ fun j hj _ => by rw [Ne, digitAddr_inj]; omega).trans (hprefix i hlow)
  · exact hsuffix i hhigh hi

/-- `IDX` holds the stop index of the upper carry loop. -/
theorem rcaBody_IDX_toNat : (rcaBody s).IDX.toNat = (rcaSuffix s).index := by
  rw [rcaBody_eq h]
  exact finish_suffixLoop_IDX_toNat s.PA h.length _ _

/-- The stop index lies in `[m, n]`, and a carry remains only at the top (R91). -/
theorem rcaBody_IDX_bounds :
    s.NB.toNat ≤ (rcaBody s).IDX.toNat ∧ (rcaBody s).IDX.toNat ≤ s.NA.toNat ∧
      ((rcaBody s).CF = true → (rcaBody s).IDX.toNat = s.NA.toNat) := by
  have hindex := suffixLoop_index s.PA (s.NA.toNat - s.NB.toNat) s.NB.toNat (rcaCarry s s.NB.toNat)
    (rcaPrefix s).2
  rw [Nat.add_sub_cancel' h.length] at hindex
  rwa [rcaBody_IDX_toNat h, rcaBody_eq h]

/-- `CF` is the carry into the stop index (R91). -/
theorem rcaBody_CF_at_IDX : (rcaBody s).CF = rcaCarry s (rcaBody s).IDX.toNat := by
  rw [rcaBody_IDX_toNat h, rcaBody_eq h]
  exact suffixLoop_carry_at_index s.PA (aDigit s) (bDigit s) false _ _ _
    (fun _ hj _ => rcaPrefix_above h hj) (fun _ => bDigit_of_ge)

/-- The carry is 1 at every suffix position that the upper carry loop runs (R90). -/
theorem rcaBody_carry_below_IDX {i : Nat} (hi : s.NB.toNat ≤ i) (hi' : i < (rcaBody s).IDX.toNat) :
    rcaCarry s i = true := by
  rw [rcaBody_IDX_toNat h] at hi'
  exact suffixLoop_carry_alive s.PA (aDigit s) (bDigit s) false _ _ _
    (fun _ hj _ => rcaPrefix_above h hj) (fun _ => bDigit_of_ge) i hi hi'

/-- Nothing outside `a[0..IDX)` is written (R94, R95). -/
theorem rcaBody_cell_outside_IDX {addr : Nat}
    (ha : addr < s.PA.toNat ∨ s.PA.toNat + (rcaBody s).IDX.toNat ≤ addr) : (rcaBody s).cell addr = s.cell addr := by
  have hne (j : Nat) (hj : j < (rcaBody s).IDX.toNat) : addr ≠ digitAddr s.PA j := by
    simp only [digitAddr]
    omega
  obtain ⟨hlow, -, -⟩ := rcaBody_IDX_bounds h
  obtain ⟨-, -, hprefix⟩ := rcaPrefix_chain h
  obtain ⟨-, -, hsuffix⟩ := rcaSuffix_chain h
  calc (rcaBody s).cell addr
      = (rcaSuffix s).state.cell addr := by rw [rcaBody_eq h]; rfl
    _ = (rcaPrefix s).2.cell addr :=
        hsuffix addr fun j _ hj => hne j (by rwa [rcaBody_IDX_toNat h])
    _ = s.cell addr := hprefix addr fun j hj => hne j (by omega)

/-- The exact sum (R84). -/
theorem rcaBody_value :
    value ((rcaBody s).seq s.PA s.NA.toNat) + (rcaBody s).CF.toNat * 2 ^ (b.W * s.NA.toNat) =
      value (s.seq s.PA s.NA.toNat) + value (s.seq s.PB s.NB.toNat) := by
  have hb : valueUpTo (bDigit s) s.NA.toNat = value (s.seq s.PB s.NB.toNat) :=
    (valueUpTo_of_zero_above h.length fun _ => bDigit_of_ge).trans (valueUpTo_congr fun _ => bDigit_of_lt)
  rw [value_seq, valueUpTo_congr fun _ => rcaBody_cell h, rcaBody_CF h, chain_value b.W_pos, hb]
  rfl

/-- The sum modulo `2^(W*n)`, the flag and the bound on the sum (R84). -/
theorem rcaBody_value_parts :
    value ((rcaBody s).seq s.PA s.NA.toNat) =
        (value (s.seq s.PA s.NA.toNat) + value (s.seq s.PB s.NB.toNat)) % 2 ^ (b.W * s.NA.toNat) ∧
      ((rcaBody s).CF = true ↔
        2 ^ (b.W * s.NA.toNat) ≤ value (s.seq s.PA s.NA.toNat) + value (s.seq s.PB s.NB.toNat)) ∧
      value (s.seq s.PA s.NA.toNat) + value (s.seq s.PB s.NB.toNat) < 2 ^ (b.W * s.NA.toNat + 1) :=
  exact_sum_parts (valueUpTo_lt _ _) (rcaBody_value h)

/-- The sequence `b` shares no cell with `a`, so it is unchanged. -/
theorem rcaBody_seq_b : (rcaBody s).seq s.PB s.NB.toNat = s.seq s.PB s.NB.toNat :=
  seq_eq_iff_eqOn.2 fun _ hm => rcaBody_cell_of_outside h.length (h.apart.outside hm)

end Ready

/-! ### `CF` before the command (R88) -/

theorem setCF_commutesWithMemory (c : Bool) : CommutesWithMemory (setCF (b := b) c) :=
  ⟨fun _ _ => rfl, fun _ _ => rfl, fun _ _ _ => rfl⟩

/-- The loops carry the old `CF` along unread, and the end of the command overwrites it. -/
theorem rcaBody_setCF (c : Bool) (s : Sys b) : rcaBody (setCF c s) = rcaBody s := by
  have hu := setCF_commutesWithMemory (b := b) c
  calc rcaBody (setCF c s)
      = finish (suffixLoop s.PA (s.NA.toNat - s.NB.toNat) s.NB.toNat
          (prefixLoop s.PA s.PB s.NB.toNat 0 false (setCF c s)).1
          (prefixLoop s.PA s.PB s.NB.toNat 0 false (setCF c s)).2) := rfl
    _ = rcaBody s := by rw [hu.prefixLoop_comm, hu.suffixLoop_comm]; rfl

theorem RcaReady.withCF {s : Sys b} (h : RcaReady s) (c : Bool) : RcaReady (setCF c s) :=
  ⟨h.running, h.length, h.a_in, h.b_in, h.apart⟩

/-! ### An empty `b` (R92) -/

theorem rcaBody_of_empty_b {s : Sys b} (hm : s.NB.toNat = 0) : rcaBody s = { s with CF := false, IDX := 0 } := by
  rw [rcaBody, hm, prefixLoop, suffixLoop_of_no_carry]
  rfl

/-! ### The statements -/

/-- Settles O21: the exact sum determines the digits, the flag and the bound, and `b` is outside the cells of `a`. -/
theorem rcaAddsSequences : Obligations.RcaAddsSequences := by
  intro b s h
  obtain ⟨hmod, hflag, hbound⟩ := rcaBody_value_parts h
  exact ⟨rcaBody s, exec_rca_of_ready h, rcaBody_value h, hmod, hflag, hbound, rcaBody_seq_b h⟩

/-- Settles O22: the two loops together leave the digits of the chain, which adds exactly. -/
theorem rcaIsDigitByDigitAddition : Obligations.RcaIsDigitByDigitAddition := fun _ s h =>
  ⟨rcaBody s, exec_rca_of_ready h, fun _ => rcaBody_cell h, rcaBody_CF h, rcaBody_value h⟩

/-- Settles O23: what the upper carry loop says of its stop index, and the flag of the exact sum. -/
theorem rcaReportsStopIndexAndOverflow : Obligations.RcaReportsStopIndexAndOverflow := by
  intro b s h
  obtain ⟨hlow, hhigh, htop⟩ := rcaBody_IDX_bounds h
  obtain ⟨-, hflag, -⟩ := rcaBody_value_parts h
  obtain ⟨_, _, _, _, hregs⟩ := rcaBody_registers s
  exact ⟨rcaBody s, exec_rca_of_ready h, hlow, hhigh, fun _ => rcaBody_carry_below_IDX h, rcaBody_CF_at_IDX h,
    fun hstop => Bool.eq_false_iff.2 fun hc => hstop.ne (htop hc), hflag, (congrArg Sys.STATUS hregs :)⟩

/-- Settles O24: the body writes no other register, and no cell outside `a[0..IDX)`. -/
theorem rcaFrame : Obligations.RcaFrame := by
  intro b s h
  obtain ⟨_, _, _, _, hregs⟩ := rcaBody_registers s
  exact ⟨rcaBody s, exec_rca_of_ready h, by rw [hregs], fun _ => rcaBody_cell_outside_IDX h⟩

/-- Settles O26: both states are ready, and the bodies leave the same state. -/
theorem rcaIgnoresCarryIn : Obligations.RcaIgnoresCarryIn := fun b s c h =>
  calc exec .rca ⟨b, setCF c s⟩
      = .next ⟨b, rcaBody (setCF c s)⟩ := exec_rca_of_ready (h.withCF c)
    _ = .next ⟨b, rcaBody s⟩ := by rw [rcaBody_setCF]
    _ = exec .rca ⟨b, s⟩ := (exec_rca_of_ready h).symm

/-- Settles O27: with an empty `b` neither loop runs, and with equal lengths the stop index lies in `[n, n]`. -/
theorem rcaEdgeCases : Obligations.RcaEdgeCases := by
  intro b s h
  refine ⟨fun hm => (exec_rca_of_ready h).trans (by rw [rcaBody_of_empty_b hm]),
    fun hmn => ⟨rcaBody s, exec_rca_of_ready h, BitVec.eq_of_toNat_eq ?_⟩⟩
  obtain ⟨hlow, hhigh, -⟩ := rcaBody_IDX_bounds h
  exact Nat.le_antisymm hhigh (hmn ▸ hlow)

end Sys2Proof.Machine
end

section
/-!
PROOFS. The statements on spec/43_carry_chain_propagator.md: `CCP` adds the carry exactly (R98), carries it through the
run of `MAX` digits (R102, R104) and writes nothing above its stop index (R103, R105); it does not use the registers
that R97 names; and an `RCA` is its prefix loop, then a `CCP` (R106).
-/

namespace Sys2Proof.Machine

/-! ### One position of the upper carry loop (R102) -/

/-- `MAX + 1` wraps to 0. -/
theorem maxDigit_add_one (W : Nat) : maxDigit W + 1 = 0 := by
  rw [maxDigit, ← BitVec.neg_one_eq_allOnes]
  exact neg_add_cancel _

section Position

variable {b : Build} (pa : BitVec b.AW) (i : Nat) (carry : Bool) (s : Sys b)

theorem suffixPosition_cell_ne {addr : Nat} (h : addr ≠ digitAddr pa i) :
    (suffixPosition pa i carry s).2.cell addr = s.cell addr := memWrite_cell_ne _ _ h

/-- The digit and the carry that leave a position stand for the digit and the carry that arrive. -/
theorem suffixPosition_toNat :
    ((suffixPosition pa i carry s).2.cell (digitAddr pa i)).toNat +
        (suffixPosition pa i carry s).1.toNat * 2 ^ b.W =
      (s.cell (digitAddr pa i)).toNat + carry.toNat := by
  simpa [suffixPosition] using dadc_toNat b.W_pos (s.cell (digitAddr pa i)) 0 carry

theorem suffixPosition_true_carry :
    (suffixPosition pa i true s).1 = decide (s.cell (digitAddr pa i) = maxDigit b.W) :=
  congrArg Prod.snd (dadc_zero_true b.W_pos _)

theorem suffixPosition_true_cell :
    (suffixPosition pa i true s).2.cell (digitAddr pa i) = s.cell (digitAddr pa i) + 1 :=
  (memWrite_cell_same _ _ _).trans (congrArg Prod.fst (dadc_zero_true b.W_pos _))

end Position

/-! ### One digit of a value (R12) -/

/-- Replacing one digit changes a value by the difference of the two digits at its place. -/
theorem valueUpTo_replace {W : Nat} {f g : Nat → Digit W} {i n : Nat} (hi : i < n) (h : ∀ j, j ≠ i → g j = f j) :
    valueUpTo g n + 2 ^ (W * i) * (f i).toNat = valueUpTo f n + 2 ^ (W * i) * (g i).toNat := by
  induction n, hi using Nat.le_induction with
  | base =>
    have hbelow : valueUpTo g i = valueUpTo f i := valueUpTo_congr fun j hj => h j hj.ne
    rw [valueUpTo_succ, valueUpTo_succ, hbelow, Nat.add_right_comm]
  | succ n hn ih =>
    rw [valueUpTo_succ, valueUpTo_succ, h n (by omega)]
    omega

/-! ### The upper carry loop from any carry -/

section Loop

variable {b : Build} (pa : BitVec b.AW)

theorem suffixLoop_succ_true (count i : Nat) (s : Sys b) :
    suffixLoop pa (count + 1) i true s =
      suffixLoop pa count (i + 1) (suffixPosition pa i true s).1 (suffixPosition pa i true s).2 := rfl

/-- Only the positions below the stop index are written (R49, R103). -/
theorem suffixLoop_cell_outside_index (count i : Nat) (carry : Bool) (s : Sys b) {addr : Nat}
    (h : ∀ j, i ≤ j → j < (suffixLoop pa count i carry s).index → addr ≠ digitAddr pa j) :
    (suffixLoop pa count i carry s).state.cell addr = s.cell addr := by
  induction count generalizing i carry s with
  | zero => rfl
  | succ count ih =>
    cases carry with
    | false => rfl
    | true =>
      rw [suffixLoop_succ_true] at h ⊢
      obtain ⟨hlow, -, -⟩ :=
        suffixLoop_index pa count (i + 1) (suffixPosition pa i true s).1 (suffixPosition pa i true s).2
      rw [ih (i + 1) _ _ fun j hj hj' => h j (by omega) hj']
      exact suffixPosition_cell_ne pa i true s (h i le_rfl (by omega))

/-- A position keeps the value of the digits together with the carry, each at its place. -/
theorem suffixPosition_value {n i : Nat} (hi : i < n) (carry : Bool) (s : Sys b) :
    value ((suffixPosition pa i carry s).2.seq pa n) +
        (suffixPosition pa i carry s).1.toNat * 2 ^ (b.W * (i + 1)) =
      value (s.seq pa n) + carry.toNat * 2 ^ (b.W * i) := by
  have hdigit := congrArg (2 ^ (b.W * i) * ·) (suffixPosition_toNat pa i carry s)
  have hvalue := valueUpTo_replace hi fun j hj =>
    suffixPosition_cell_ne pa i carry s (addr := digitAddr pa j) (by rwa [Ne, digitAddr_inj])
  rw [value_seq, value_seq, Nat.mul_succ, Nat.pow_add]
  linarith

/-- The upper carry loop is exact: it adds the carry at the place of the position it starts from (R98). -/
theorem suffixLoop_value (count i : Nat) (carry : Bool) (s : Sys b) :
    value ((suffixLoop pa count i carry s).state.seq pa (i + count)) +
        (suffixLoop pa count i carry s).carry.toNat * 2 ^ (b.W * (i + count)) =
      value (s.seq pa (i + count)) + carry.toNat * 2 ^ (b.W * i) := by
  induction count generalizing i carry s with
  | zero => rfl
  | succ count ih =>
    cases carry with
    | false => simp [suffixLoop]
    | true =>
      have hrest := ih (i + 1) (suffixPosition pa i true s).1 (suffixPosition pa i true s).2
      rw [show i + 1 + count = i + (count + 1) by omega] at hrest
      exact hrest.trans (suffixPosition_value pa (by omega) true s)

/-- The carry survives a run of `MAX` digits and leaves zeros there (R102). -/
theorem suffixLoop_of_run (run count i : Nat) (s : Sys b)
    (h : ∀ j, i ≤ j → j < i + run → s.cell (digitAddr pa j) = maxDigit b.W) :
    ∃ s' : Sys b, suffixLoop pa (run + count) i true s = suffixLoop pa count (i + run) true s' ∧
      (∀ j, i ≤ j → j < i + run → s'.cell (digitAddr pa j) = 0) ∧
      ∀ j, j < i ∨ i + run ≤ j → s'.cell (digitAddr pa j) = s.cell (digitAddr pa j) := by
  induction run generalizing i s with
  | zero => exact ⟨s, by rw [Nat.zero_add]; rfl, fun _ _ _ => by omega, fun _ _ => rfl⟩
  | succ run ih =>
    have hmax := h i le_rfl (by omega)
    have hcarry : (suffixPosition pa i true s).1 = true := by
      rw [suffixPosition_true_carry, decide_eq_true hmax]
    have hzero : (suffixPosition pa i true s).2.cell (digitAddr pa i) = 0 := by
      rw [suffixPosition_true_cell, hmax, maxDigit_add_one]
    have hother (j : Nat) (hj : j ≠ i) :
        (suffixPosition pa i true s).2.cell (digitAddr pa j) = s.cell (digitAddr pa j) :=
      suffixPosition_cell_ne pa i true s (by rwa [Ne, digitAddr_inj])
    obtain ⟨s', hloop, hzeros, hrest⟩ := ih (i + 1) (suffixPosition pa i true s).2
      fun j hj hj' => (hother j (by omega)).trans (h j (by omega) (by omega))
    refine ⟨s', ?_, fun j hj hj' => ?_, fun j hj => ?_⟩
    · rw [Nat.add_right_comm, suffixLoop_succ_true, hcarry, hloop, Nat.add_assoc, Nat.add_comm 1]
    · rcases Nat.eq_or_lt_of_le hj with rfl | hj
      · rw [hrest i (by omega), hzero]
      · exact hzeros j hj (by omega)
    · rw [hrest j (by omega), hother j (by omega)]

/-- A digit that is not `MAX` absorbs the carry (R102). -/
theorem suffixLoop_of_absorbing {i : Nat} {s : Sys b} (h : s.cell (digitAddr pa i) ≠ maxDigit b.W) (count : Nat) :
    suffixLoop pa (count + 1) i true s = ⟨i + 1, false, (suffixPosition pa i true s).2⟩ := by
  rw [suffixLoop_succ_true, suffixPosition_true_carry, decide_eq_false h, suffixLoop_of_no_carry]

end Loop

/-! ### The body of `CCP` (R98, R103 to R105) -/

section Body

variable {b : Build} {s : Sys b}

theorem ccpBody_of_no_carry (h : s.CF = false) : ccpBody s = { s with IDX := s.NB } := by
  rw [ccpBody, h, suffixLoop_of_no_carry, finish, BitVec.ofNat_toNat, BitVec.setWidth_eq, ← h]

section Length

variable (hlen : s.NB.toNat ≤ s.NA.toNat)
include hlen

theorem ccpBody_value :
    value ((ccpBody s).seq s.PA s.NA.toNat) + (ccpBody s).CF.toNat * 2 ^ (b.W * s.NA.toNat) =
      value (s.seq s.PA s.NA.toNat) + s.CF.toNat * 2 ^ (b.W * s.NB.toNat) := by
  have hexact := suffixLoop_value s.PA (s.NA.toNat - s.NB.toNat) s.NB.toNat s.CF s
  rwa [Nat.add_sub_cancel' hlen] at hexact

/-- The stop index lies in `[start, n]`, and a carry remains only at the top (R103). -/
theorem ccpBody_IDX_bounds :
    s.NB.toNat ≤ (ccpBody s).IDX.toNat ∧ (ccpBody s).IDX.toNat ≤ s.NA.toNat ∧
      ((ccpBody s).CF = true → (ccpBody s).IDX.toNat = s.NA.toNat) := by
  have hindex := suffixLoop_index s.PA (s.NA.toNat - s.NB.toNat) s.NB.toNat s.CF s
  rwa [Nat.add_sub_cancel' hlen, ← finish_suffixLoop_IDX_toNat s.PA hlen] at hindex

/-- Nothing outside `a[start..IDX)` is written (R103, R105). -/
theorem ccpBody_cell_outside_IDX {addr : Nat}
    (h : addr < s.PA.toNat + s.NB.toNat ∨ s.PA.toNat + (ccpBody s).IDX.toNat ≤ addr) :
    (ccpBody s).cell addr = s.cell addr := by
  refine suffixLoop_cell_outside_index s.PA _ _ _ _ fun j hj hj' => ?_
  rw [← finish_suffixLoop_IDX_toNat s.PA hlen] at hj'
  change j < (ccpBody s).IDX.toNat at hj'
  simp only [digitAddr]
  omega

theorem ccpBody_cell_below_start {i : Nat} (hi : i < s.NB.toNat) :
    (ccpBody s).cell (digitAddr s.PA i) = s.cell (digitAddr s.PA i) :=
  ccpBody_cell_outside_IDX hlen (.inl (Nat.add_lt_add_left hi _))

/-- A run of `MAX` digits up to the top, an empty one too, becomes zeros, and the carry remains (R104). -/
theorem ccpBody_of_run_to_top (hc : s.CF = true)
    (hrun : ∀ i, s.NB.toNat ≤ i → i < s.NA.toNat → s.cell (digitAddr s.PA i) = maxDigit b.W) :
    (ccpBody s).CF = true ∧ (ccpBody s).IDX = s.NA ∧
      ∀ i, s.NB.toNat ≤ i → i < s.NA.toNat → (ccpBody s).cell (digitAddr s.PA i) = 0 := by
  obtain ⟨s', hloop, hzeros, -⟩ := suffixLoop_of_run s.PA (s.NA.toNat - s.NB.toNat) 0 s.NB.toNat s
    fun j hj hj' => hrun j hj (by omega)
  have hbody : ccpBody s = finish ⟨s.NA.toNat, true, s'⟩ := by
    rw [ccpBody, hc, ← Nat.add_zero (s.NA.toNat - s.NB.toNat), hloop, Nat.add_sub_cancel' hlen, suffixLoop]
  rw [hbody]
  exact ⟨rfl, BitVec.ofNat_toNat _ _ |>.trans (BitVec.setWidth_eq _), fun i hi hi' => hzeros i hi (by omega)⟩

end Length

/-- A run of `MAX` digits that ends at `j < n` becomes zeros, and `a[j]` absorbs the carry (R104). -/
theorem ccpBody_of_run_below_top {j : Nat} (hc : s.CF = true) (hlow : s.NB.toNat ≤ j) (hhigh : j < s.NA.toNat)
    (hrun : ∀ i, s.NB.toNat ≤ i → i < j → s.cell (digitAddr s.PA i) = maxDigit b.W)
    (hstop : s.cell (digitAddr s.PA j) ≠ maxDigit b.W) :
    (ccpBody s).CF = false ∧ (ccpBody s).IDX.toNat = j + 1 ∧
      (∀ i, s.NB.toNat ≤ i → i < j → (ccpBody s).cell (digitAddr s.PA i) = 0) ∧
      (ccpBody s).cell (digitAddr s.PA j) = s.cell (digitAddr s.PA j) + 1 := by
  obtain ⟨s', hloop, hzeros, hrest⟩ := suffixLoop_of_run s.PA (j - s.NB.toNat) (s.NA.toNat - j - 1 + 1) s.NB.toNat s
    fun i hi hi' => hrun i hi (by omega)
  rw [Nat.add_sub_cancel' hlow] at hloop hzeros hrest
  have hj : s'.cell (digitAddr s.PA j) = s.cell (digitAddr s.PA j) := hrest j (.inr le_rfl)
  have hbody : ccpBody s = finish ⟨j + 1, false, (suffixPosition s.PA j true s').2⟩ := by
    rw [ccpBody, hc, show s.NA.toNat - s.NB.toNat = j - s.NB.toNat + (s.NA.toNat - j - 1 + 1) by omega, hloop,
      suffixLoop_of_absorbing s.PA (hj ▸ hstop)]
  rw [hbody]
  refine ⟨rfl, index_toNat (len := s.NA) hhigh, fun i hi hi' => ?_, ?_⟩
  · exact (suffixPosition_cell_ne s.PA j true s' (by rw [Ne, digitAddr_inj]; omega)).trans (hzeros i hi hi')
  · exact (suffixPosition_true_cell s.PA j s').trans (by rw [hj])

end Body

/-! ### The registers that `CCP` does not use (R97) -/

section Unused

variable {b : Build}

/-- The state with other values in the registers that `CCP` does not use. -/
def setUnused (pb : BitVec b.AW) (va vb vc vk : Digit b.W) (s : Sys b) : Sys b :=
  { s with PB := pb, A := va, B := vb, C := vc, K := vk }

variable (pb : BitVec b.AW) (va vb vc vk : Digit b.W)

theorem setUnused_commutesWithMemory : CommutesWithMemory (setUnused pb va vb vc vk) :=
  ⟨fun _ _ => rfl, fun _ _ => rfl, fun _ _ _ => rfl⟩

theorem ccpBody_setUnused (s : Sys b) :
    ccpBody (setUnused pb va vb vc vk s) = setUnused pb va vb vc vk (ccpBody s) :=
  congrArg finish ((setUnused_commutesWithMemory pb va vb vc vk).suffixLoop_comm s.PA (s.NA.toNat - s.NB.toNat)
    s.NB.toNat s.CF s)

/-- The checks do not see these registers, and taking a fault keeps them. -/
theorem ccpCommand_setUnused (s : Sys b) :
    ccpCommand (setUnused pb va vb vc vk s) = setUnused pb va vb vc vk (ccpCommand s) := by
  change checked (ccpFault s) ccpBody (setUnused pb va vb vc vk s) = _
  rw [ccpCommand]
  cases ccpFault s with
  | none => exact ccpBody_setUnused pb va vb vc vk s
  | some f => rfl

end Unused

/-! ### `RCA` as the prefix loop, then `CCP` (R106) -/

section PrefixThenCcp

variable {b : Build} {s : Sys b}

/-- The prefix loop changes no register, so its end is ready for a `CCP` if the start was ready for an `RCA`. -/
theorem RcaReady.ccpReady_prefix (h : RcaReady s) (c : Bool) : CcpReady (setCF c (rcaPrefix s).2) := by
  obtain ⟨_, _, hregs⟩ := prefixLoop_registers s.PA s.PB s.NB.toNat 0 false s
  rw [hregs]
  exact ⟨h.running, h.length, h.a_in⟩

/-- `CCP` runs the loop that ends an `RCA`, from the same index and with the same carry. -/
theorem ccpBody_prefix (s : Sys b) : ccpBody (setCF (rcaPrefix s).1 (rcaPrefix s).2) = rcaBody s := by
  obtain ⟨_, _, hregs⟩ := prefixLoop_registers s.PA s.PB s.NB.toNat 0 false s
  have hPA : (rcaPrefix s).2.PA = s.PA := (congrArg Sys.PA hregs :)
  have hNA : (rcaPrefix s).2.NA = s.NA := (congrArg Sys.NA hregs :)
  have hNB : (rcaPrefix s).2.NB = s.NB := (congrArg Sys.NB hregs :)
  calc ccpBody (setCF (rcaPrefix s).1 (rcaPrefix s).2)
      = finish (suffixLoop s.PA (s.NA.toNat - s.NB.toNat) s.NB.toNat (rcaPrefix s).1
          (setCF (rcaPrefix s).1 (rcaPrefix s).2)) := by rw [← hPA, ← hNA, ← hNB]; rfl
    _ = rcaBody s := by rw [(setCF_commutesWithMemory _).suffixLoop_comm]; rfl

end PrefixThenCcp

/-! ### The statements -/

/-- Settles O28: the upper carry loop adds the carry at the place of `start`, and writes no cell below it. -/
theorem ccpAddsTheCarry : Obligations.CcpAddsTheCarry := fun _ s h =>
  ⟨ccpBody s, exec_ccp_of_ready h, ccpBody_value h.length, fun _ => ccpBody_cell_below_start h.length⟩

/-- Settles O29, by the three cases of R104. -/
theorem ccpCarriesThroughTheRunOfMax : Obligations.CcpCarriesThroughTheRunOfMax := fun _ s h =>
  ⟨fun hc => (exec_ccp_of_ready h).trans (by rw [ccpBody_of_no_carry hc]),
    fun _ hc hlow hhigh hrun hstop =>
      ⟨ccpBody s, exec_ccp_of_ready h, ccpBody_of_run_below_top hc hlow hhigh hrun hstop⟩,
    fun hc hrun => ⟨ccpBody s, exec_ccp_of_ready h, ccpBody_of_run_to_top h.length hc hrun⟩⟩

/-- Settles O30: the body writes no other register, and no cell outside `a[start..IDX)`. -/
theorem ccpFrame : Obligations.CcpFrame := by
  intro b s h
  obtain ⟨_, _, _, _, hregs⟩ := ccpBody_registers s
  obtain ⟨hlow, hhigh, htop⟩ := ccpBody_IDX_bounds h.length
  exact ⟨ccpBody s, exec_ccp_of_ready h, by rw [hregs], hlow, hhigh, fun hc => BitVec.eq_of_toNat_eq (htop hc),
    fun _ => ccpBody_cell_outside_IDX h.length⟩

/-- Settles O32: issuing the command commutes with setting the five registers. -/
theorem ccpIgnoresOtherRegisters : Obligations.CcpIgnoresOtherRegisters := by
  intro b s t pb va vb vc vk h
  obtain rfl := sys_of_next ((exec_instr .ccp s).symm.trans h)
  have hcomm : issue ccpCommand (setUnused pb va vb vc vk s) = setUnused pb va vb vc vk (issue ccpCommand s) :=
    issue_comm rfl (ccpCommand_setUnused pb va vb vc vk s)
  calc exec .ccp ⟨b, setUnused pb va vb vc vk s⟩
      = .next ⟨b, issue ccpCommand (setUnused pb va vb vc vk s)⟩ := exec_instr .ccp _
    _ = .next ⟨b, setUnused pb va vb vc vk (issue ccpCommand s)⟩ := by rw [hcomm]

/-- Settles O33: the state after the prefix loop is ready for a `CCP`, whose body then ends as that of the `RCA`. -/
theorem rcaIsPrefixThenCcp : Obligations.RcaIsPrefixThenCcp := fun b s h =>
  ⟨rcaBody s, exec_rca_of_ready h,
    calc exec .ccp ⟨b, setCF (rcaPrefix s).1 (rcaPrefix s).2⟩
        = .next ⟨b, ccpBody (setCF (rcaPrefix s).1 (rcaPrefix s).2)⟩ := exec_ccp_of_ready (h.ccpReady_prefix _)
      _ = .next ⟨b, rcaBody s⟩ := by rw [ccpBody_prefix]⟩

end Sys2Proof.Machine
end

section
/-!
PROOFS. The statements on spec/44_host_transactions.md: register writes (R107, R113), commands on a halted block (R114,
R125), and the host's own accesses to `DM` (R110, R111).
-/

namespace Sys2Proof.Machine

variable {b : Build} {s : Sys b}

/-! ### Commands on a halted block (R114, R125) -/

theorem halted_iff (s : Sys b) : s.halted = true ↔ s.fault ≠ 0#3 := bne_iff_ne

theorem exec_instr_of_halted (h : s.halted = true) (c : Command) : exec c.instr ⟨b, s⟩ = .next ⟨b, s⟩ := by
  rw [exec_instr, issue_of_halted h]

theorem exec_wr_cmd_of_halted (h : s.halted = true) {v : Nat} (hv : v < 2 ^ 8) :
    exec (.wr .CMD v) ⟨b, s⟩ = .next ⟨b, s⟩ := by
  rw [exec_wr_cmd s hv, issue_of_halted h]

/-! ### Lines at an address that names no cell (R110, R111, U12) -/

section NoCell

variable {addr : Nat} {rest : List (HostLine b.W)}

theorem step_mw_of_noCell {v : Digit b.W} (hp : s.pending = .mw addr v :: rest) (h : b.memDigits ≤ addr) :
    step ⟨b, s⟩ = .refused .noSuchCell :=
  (step_of_pending_cons hp).trans (hostWrite_of_noCell v (Nat.not_lt.2 h))

theorem step_mr_of_noCell (hp : s.pending = .mr addr :: rest) (h : b.memDigits ≤ addr) :
    step ⟨b, s⟩ = .refused .noSuchCell :=
  (step_of_pending_cons hp).trans (hostRead_of_noCell (Nat.not_lt.2 h))

end NoCell

/-! ### The value a register write leaves (R107) -/

/-- A value that fits in a carry is stored whole, though the model stores the test `v == 1`. -/
theorem beq_one_toNat_of_lt_two {v : Nat} (h : v < 2) : (v == 1).toNat = v := by
  interval_cases v <;> rfl

/-! ### The statements -/

/-- Settles O47: the cell that `MW` writes reads as `v`, and every other cell as before. -/
theorem mwWritesOneCell : Obligations.MwWritesOneCell := by
  refine fun b s addr v rest hp => ⟨fun h => ?_, step_mw_of_noCell hp⟩
  obtain ⟨t, hstep, hcell, hframe⟩ := step_mw_of_cell hp h
  exact ⟨t, hstep, (hcell addr).trans (if_pos rfl), fun other hne => (hcell other).trans (if_neg hne), hframe⟩

/-- Settles O40: a halted block ignores what `issue` would run, be it named by a mnemonic or by a word. -/
theorem haltedBlockIgnoresCommands : Obligations.HaltedBlockIgnoresCommands := fun _ s =>
  ⟨halted_iff s, fun h =>
    ⟨exec_instr_of_halted h .dadc, exec_instr_of_halted h .dmac, exec_instr_of_halted h .rca,
      exec_instr_of_halted h .ccp, fun _ => exec_wr_cmd_of_halted h⟩⟩

/-- Settles O43: a value that fits passes the check of `execWr`, and the register's width does not cut it. -/
theorem wrWritesItsRegister : Obligations.WrWritesItsRegister := by
  refine fun b s v => ⟨fun _ => rfl, fun h => ?_, fun h => ?_, fun h => ?_⟩
  · have hv : (BitVec.ofNat b.W v).toNat = v := Nat.mod_eq_of_lt h
    exact ⟨⟨_, exec_wr_of_fits (reg := .A) h, hv, rfl⟩, ⟨_, exec_wr_of_fits (reg := .B) h, hv, rfl⟩,
      ⟨_, exec_wr_of_fits (reg := .C) h, hv, rfl⟩, ⟨_, exec_wr_of_fits (reg := .K) h, hv, rfl⟩⟩
  · exact ⟨_, exec_wr_of_fits (reg := .CF) h, beq_one_toNat_of_lt_two h, rfl⟩
  · have hv : (BitVec.ofNat b.AW v).toNat = v := Nat.mod_eq_of_lt h
    exact ⟨⟨_, exec_wr_of_fits (reg := .PA) h, hv, rfl⟩, ⟨_, exec_wr_of_fits (reg := .NA) h, hv, rfl⟩,
      ⟨_, exec_wr_of_fits (reg := .PB) h, hv, rfl⟩, ⟨_, exec_wr_of_fits (reg := .NB) h, hv, rfl⟩⟩

/-- Settles O45: a write to these registers passes the check of `execWr` and stores nothing; a read returns 0. -/
theorem accessesThatDoNothing : Obligations.AccessesThatDoNothing := fun _ s _ n =>
  ⟨exec_wr_of_fits (reg := .IDX), exec_wr_of_fits (reg := .STATUS), exec_wr_of_fits (reg := .reserved n),
    exec_rd s .CMD, exec_rd s (.reserved n)⟩

/-- Settles O48: `MR` is answered where the cell exists, and refused elsewhere. -/
theorem mrReturnsTheCell : Obligations.MrReturnsTheCell := fun _ _ _ _ hp =>
  ⟨step_mr_of_cell hp, step_mr_of_noCell hp⟩

end Sys2Proof.Machine
end

section
/-!
PROOFS. The statements on spec/60_exceptions.md: when a command takes which fault (R118 to R120), what taking one does
(R123, R124), and what leaves `STATUS` as it was (R126, R128, R131).
-/

namespace Sys2Proof.Machine

variable {b : Build} {s t : Sys b}

/-! ### Taking a fault (R123) -/

/-- Taking a fault keeps the reserved bits of `STATUS` (R21, R123). -/
theorem raise_reserved (f : FaultKind) (s : Sys b) :
    (raise f s).STATUS.extractLsb' 3 5 = s.STATUS.extractLsb' 3 5 :=
  BitVec.extractLsb'_append_eq_left

theorem faultO_of_halted (h : s.halted = true) : s.faultO = 1#1 := congrArg BitVec.ofBool h

/-- `RD STATUS` returns the code of the fault last taken (R108, R123). -/
theorem readReg_raise_STATUS (f : FaultKind) (s : Sys b) :
    readReg (raise f s) .STATUS = (0#5 ++ faultCode f : BitVec 8) :=
  congrArg (0#5 ++ ·) (raise_fault f s)

theorem faultCode_cases (f : FaultKind) :
    faultCode f = 1#3 ∨ faultCode f = 2#3 ∨ faultCode f = 3#3 ∨ faultCode f = 4#3 := by
  cases f <;> decide

/-! ### The checks, in the order of R122 -/

theorem pastEnd_eq_true {base len : BitVec b.AW} :
    pastEnd base len = true ↔ 0 < len.toNat ∧ b.memDigits < base.toNat + len.toNat := by
  simp [pastEnd]

theorem shareCell_eq_true {pa na pb nb : BitVec b.AW} :
    shareCell pa na pb nb = true ↔ 0 < na.toNat ∧ 0 < nb.toNat ∧
      pa.toNat < pb.toNat + nb.toNat ∧ pb.toNat < pa.toNat + na.toNat := by
  simp [shareCell, and_assoc]

theorem lengthFails_eq_false : lengthFails s = false ↔ s.NB.toNat ≤ s.NA.toNat := by
  simp [lengthFails]

/-- The fault that a command takes on a block that is not halted, if any: the digit commands take none (R117). -/
def commandFault (s : Sys b) : Command → Option FaultKind
  | .dadc | .dmac => none
  | .rca => rcaFault s
  | .ccp => ccpFault s

theorem rcaFault_eq_length (h : s.NA.toNat < s.NB.toNat) : rcaFault s = some .lengthFault :=
  if_pos (decide_eq_true h)

theorem ccpFault_eq_length (h : s.NA.toNat < s.NB.toNat) : ccpFault s = some .lengthFault :=
  if_pos (decide_eq_true h)

section LengthKept

variable (hlen : s.NB.toNat ≤ s.NA.toNat)
include hlen

theorem rcaFault_eq_range (h : pastEnd s.PA s.NA = true ∨ pastEnd s.PB s.NB = true) :
    rcaFault s = some .rangeFault := by
  simp [rcaFault, lengthFails_eq_false.2 hlen, h]

theorem ccpFault_eq_range (h : pastEnd s.PA s.NA = true) : ccpFault s = some .rangeFault := by
  simp [ccpFault, lengthFails_eq_false.2 hlen, h]

theorem rcaFault_eq_alias (ha : InMemory s.PA s.NA) (hb : InMemory s.PB s.NB)
    (h : shareCell s.PA s.NA s.PB s.NB = true) : rcaFault s = some .aliasFault := by
  simp [rcaFault, lengthFails_eq_false.2 hlen, pastEnd_eq_false.2 ha, pastEnd_eq_false.2 hb, h]

end LengthKept

theorem RcaReady.noFault (h : RcaReady s) : rcaFault s = none :=
  rcaFault_eq_none.2 ⟨h.length, ⟨h.a_in, h.b_in⟩, h.apart⟩

theorem CcpReady.noFault (h : CcpReady s) : ccpFault s = none := ccpFault_eq_none.2 ⟨h.length, h.a_in⟩

/-! ### A command takes its fault and does nothing else, or leaves `STATUS` alone (R124, R128) -/

theorem commandEffect_of_fault {c : Command} {f : FaultKind} (h : commandFault s c = some f) :
    commandEffect c s = raise f s := by
  cases c with
  | dadc | dmac => cases h
  | rca => exact congrArg (checked · rcaBody s) h
  | ccp => exact congrArg (checked · ccpBody s) h

theorem commandEffect_STATUS_of_no_fault {c : Command} (h : commandFault s c = none) :
    (commandEffect c s).STATUS = s.STATUS := by
  cases c with
  | dadc | dmac => rfl
  | rca =>
    have hrun : commandEffect .rca s = rcaBody s := congrArg (checked · rcaBody s) h
    obtain ⟨_, _, _, _, hbody⟩ := rcaBody_registers s
    rw [hrun, hbody]
  | ccp =>
    have hrun : commandEffect .ccp s = ccpBody s := congrArg (checked · ccpBody s) h
    obtain ⟨_, _, _, _, hbody⟩ := ccpBody_registers s
    rw [hrun, hbody]

theorem exec_instr_of_fault (hs : s.halted = false) {c : Command} {f : FaultKind} (h : commandFault s c = some f) :
    ∃ t : Sys b, exec c.instr ⟨b, s⟩ = .next ⟨b, t⟩ ∧ t.fault = faultCode f ∧ t = { s with STATUS := t.STATUS } :=
  ⟨raise f s, by rw [exec_instr, issue_of_running hs, commandEffect_of_fault h], raise_fault f s, rfl⟩

theorem exec_instr_STATUS_of_no_fault {c : Command} (h : commandFault s c = none)
    (ht : exec c.instr ⟨b, s⟩ = .next ⟨b, t⟩) : t.STATUS = s.STATUS := by
  obtain rfl := sys_of_next ((exec_instr c s).symm.trans ht)
  rcases issue_cases (commandEffect c) s with ⟨-, hi⟩ | ⟨-, hi⟩
  · rw [hi]
  · rw [hi, commandEffect_STATUS_of_no_fault h]

/-! ### Everything an instruction can do to `STATUS` (R123 to R125) -/

/-- Between `s` and `t` the block has left `STATUS` alone, or it was running and has only taken a fault. -/
def KeepsStatusOrFaults (s t : Sys b) : Prop :=
  t.STATUS = s.STATUS ∨ (s.halted = false ∧ ∃ f, t = raise f s)

theorem KeepsStatusOrFaults.STATUS_of_halted (h : KeepsStatusOrFaults s t) (hs : s.halted = true) :
    t.STATUS = s.STATUS :=
  h.resolve_right fun ⟨hrun, _⟩ => Bool.false_ne_true (hrun.symm.trans hs)

/-- A running block that gets halted has taken a fault. -/
theorem KeepsStatusOrFaults.raise_of_halts (h : KeepsStatusOrFaults s t) (hs : s.halted = false)
    (ht : t.halted = true) : ∃ f, t = raise f s := by
  rcases h with hkept | ⟨-, hraise⟩
  · exact absurd ((halted_congr hkept).symm.trans ht) (Bool.eq_false_iff.1 hs)
  · exact hraise

theorem commandWord_STATUS_or_raise (word : BitVec 8) (s : Sys b) :
    (commandWord word s).STATUS = s.STATUS ∨ ∃ f, commandWord word s = raise f s := by
  cases hd : decodeCommand word with
  | none => exact .inr ⟨_, commandWord_of_none hd s⟩
  | some c =>
    rw [commandWord_of_some hd]
    cases hf : commandFault s c with
    | none => exact .inl (commandEffect_STATUS_of_no_fault hf)
    | some f => exact .inr ⟨f, commandEffect_of_fault hf⟩

theorem issue_keepsStatusOrFaults {command : Sys b → Sys b}
    (h : (command s).STATUS = s.STATUS ∨ ∃ f, command s = raise f s) : KeepsStatusOrFaults s (issue command s) := by
  rcases issue_cases command s with ⟨-, hi⟩ | ⟨hs, hi⟩
  · exact .inl (congrArg Sys.STATUS hi)
  · rw [hi]
    exact h.imp_right fun hraise => ⟨hs, hraise⟩

theorem portWrite_keepsStatusOrFaults (r : Reg) (v : Nat) (s : Sys b) : KeepsStatusOrFaults s (portWrite r v s) := by
  cases r with
  | CMD => exact issue_keepsStatusOrFaults (commandWord_STATUS_or_raise _ s)
  | A | B | C | K | CF | PA | NA | PB | NB | IDX | STATUS | reserved => exact .inl rfl

theorem exec_wr_keepsStatusOrFaults {r : Reg} {v : Nat} (ht : exec (.wr r v) ⟨b, s⟩ = .next ⟨b, t⟩) :
    KeepsStatusOrFaults s t := by
  by_cases hv : v < 2 ^ r.width b
  · obtain rfl := sys_of_next ((exec_wr_of_fits hv).symm.trans ht)
    exact portWrite_keepsStatusOrFaults r v s
  · cases (exec_wr_of_tooWide hv).symm.trans ht

/-- A mnemonic acts as the write of its word to `CMD` (R61). -/
theorem exec_instr_keepsStatusOrFaults {c : Command} (ht : exec c.instr ⟨b, s⟩ = .next ⟨b, t⟩) :
    KeepsStatusOrFaults s t :=
  exec_wr_keepsStatusOrFaults ((exec_wr_opcode s c).trans ht)

theorem exec_keepsStatusOrFaults {i : Instr} (ht : exec i ⟨b, s⟩ = .next ⟨b, t⟩) : KeepsStatusOrFaults s t := by
  cases i with
  | dadc => exact exec_instr_keepsStatusOrFaults (c := .dadc) ht
  | dmac => exact exec_instr_keepsStatusOrFaults (c := .dmac) ht
  | rca => exact exec_instr_keepsStatusOrFaults (c := .rca) ht
  | ccp => exact exec_instr_keepsStatusOrFaults (c := .ccp) ht
  | wr r v => exact exec_wr_keepsStatusOrFaults ht
  | rd r =>
    obtain rfl := sys_of_next ((exec_rd s r).symm.trans ht)
    exact .inl rfl

/-! ### Lines of the host on a halted block (R126) -/

/-- The two accesses of the host to `DM` change no register (R110, R111). -/
theorem hostWrite_STATUS {addr : Nat} {v : Digit b.W} (ht : hostWrite addr v s = .next ⟨b, t⟩) :
    t.STATUS = s.STATUS := by
  by_cases ha : addr < b.memDigits
  · obtain rfl := sys_of_next ((hostWrite_of_cell v ha).symm.trans ht)
    rfl
  · cases (hostWrite_of_noCell v ha).symm.trans ht

theorem hostRead_STATUS {addr : Nat} (ht : hostRead addr s = .next ⟨b, t⟩) : t.STATUS = s.STATUS := by
  by_cases ha : addr < b.memDigits
  · obtain rfl := sys_of_next ((hostRead_of_cell ha).symm.trans ht)
    rfl
  · cases (hostRead_of_noCell ha).symm.trans ht

theorem runLine_STATUS_of_halted (hs : s.halted = true) {line : HostLine b.W} (hline : line ≠ .reset)
    (ht : runLine line s = .next ⟨b, t⟩) : t.STATUS = s.STATUS := by
  cases line with
  | port tr =>
    cases hd : decode b tr with
    | ok i => exact (exec_keepsStatusOrFaults ((runLine_port_of_decode hd).symm.trans ht)).STATUS_of_halted hs
    | error why => cases (runLine_port_of_reject hd).symm.trans ht
  | mw addr v => exact hostWrite_STATUS ht
  | mr addr => exact hostRead_STATUS ht
  | reset => exact absurd rfl hline

/-- Only a `RESET` at the head of the host's list changes the `STATUS` of a halted block. -/
theorem step_STATUS_of_halted (hs : s.halted = true) (hreset : ∀ rest, s.pending ≠ .reset :: rest)
    (ht : step ⟨b, s⟩ = .next ⟨b, t⟩) : t.STATUS = s.STATUS := by
  cases hp : s.pending with
  | nil => exact congrArg Sys.STATUS (sys_of_next ((step_of_pending_nil hp).symm.trans ht))
  | cons line rest =>
    exact runLine_STATUS_of_halted (s := takeLine rest s) hs (fun hline => hreset rest (hline ▸ hp))
      ((step_of_pending_cons hp).symm.trans ht)

theorem resetRegisters_halted (s : Sys b) : (resetRegisters s).halted = false := rfl

theorem step_halted_of_reset {rest : List (HostLine b.W)} (hp : s.pending = .reset :: rest)
    (ht : step ⟨b, s⟩ = .next ⟨b, t⟩) : t.halted = false := by
  obtain rfl := sys_of_next ((step_of_pending_cons hp).symm.trans ht)
  exact resetRegisters_halted _

/-! ### The statements -/

/-- Settles O34: `LENGTH` is the first check of both commands. -/
theorem lengthFault : Obligations.LengthFault := by
  rintro b s hs h _ (rfl | rfl)
  · exact exec_instr_of_fault hs (c := .rca) (rcaFault_eq_length h)
  · exact exec_instr_of_fault hs (c := .ccp) (ccpFault_eq_length h)

/-- Settles O35: `RANGE` is the first check after `LENGTH`. -/
theorem rangeFault : Obligations.RangeFault := fun _ _ hs hlen =>
  ⟨fun h => exec_instr_of_fault hs (c := .rca)
      (rcaFault_eq_range hlen (h.imp pastEnd_eq_true.2 pastEnd_eq_true.2)),
    fun h => exec_instr_of_fault hs (c := .ccp) (ccpFault_eq_range hlen (pastEnd_eq_true.2 h))⟩

/-- Settles O36: `ALIAS` is the check after `LENGTH` and `RANGE`. -/
theorem aliasFault : Obligations.AliasFault := fun _ _ hs hlen ha hb h =>
  exec_instr_of_fault hs (c := .rca) (rcaFault_eq_alias hlen ha hb (shareCell_eq_true.2 h))

/-- Settles O39: an instruction that halts a running block has left it as `raise` does. -/
theorem faultsArePrecise : Obligations.FaultsArePrecise := by
  intro b s t i hexec hs ht
  obtain ⟨f, rfl⟩ := (exec_keepsStatusOrFaults hexec).raise_of_halts hs ht
  exact ⟨rfl, raise_fault f s ▸ faultCode_cases f, raise_reserved f s⟩

/-- Settles O41, by what each line does to a halted block; the build is the same after the step. -/
theorem onlyResetClearsAFault : Obligations.OnlyResetClearsAFault := by
  rintro ⟨b, s⟩ ⟨_, t⟩ hs ht
  obtain rfl := stepKeepsTheBuild _ _ ht
  refine ⟨fun hreset => ?_, fun rest hp => step_halted_of_reset hp ht⟩
  have hkept : t.STATUS = s.STATUS := step_STATUS_of_halted hs hreset ht
  exact ⟨hkept, (halted_congr hkept).trans hs⟩

/-- Settles O42: no carry is among the checks, and the host's duties are what the checks ask for. -/
theorem overflowIsNoFault : Obligations.OverflowIsNoFault := fun _ _ _ =>
  ⟨exec_instr_STATUS_of_no_fault (c := .dadc) rfl, exec_instr_STATUS_of_no_fault (c := .dmac) rfl,
    fun h => exec_instr_STATUS_of_no_fault (c := .rca) h.noFault,
    fun h => exec_instr_STATUS_of_no_fault (c := .ccp) h.noFault⟩

/-- Settles O8: with an empty list a step answers its own state. -/
theorem idleBlockDoesNothing : Obligations.IdleBlockDoesNothing := fun _ _ => step_of_pending_nil

/-- Settles O38: `raise` writes the low bits of `STATUS`, and each code is one of R117 and not 0. -/
theorem faultEntryRecordsTheCode : Obligations.FaultEntryRecordsTheCode := fun _ f s =>
  ⟨rfl, raise_fault f s, raise_reserved f s, raise_halted f s, faultO_of_halted (raise_halted f s),
    readReg_raise_STATUS f s, rfl, rfl, rfl, rfl⟩

end Sys2Proof.Machine
end

section
/-!
PROOFS. The statements on spec/70_reset_and_hazards.md: what `RESET` does (R136), and that every line a host program may
hold completes (R149).
-/

namespace Sys2Proof.Machine

variable {b : Build}

/-! ### `RESET` (R136) -/

theorem step_reset {s : Sys b} {rest : List (HostLine b.W)} (hp : s.pending = .reset :: rest) :
    step ⟨b, s⟩ = .next ⟨b, resetRegisters (takeLine rest s)⟩ := step_of_pending_cons hp

theorem resetRegisters_faultO (s : Sys b) : (resetRegisters s).faultO = 0#1 := rfl

theorem resetRegisters_cell (addr : Nat) (s : Sys b) : (resetRegisters s).cell addr = s.cell addr :=
  cell_congr (resetRegisters_DM s) (resetRegisters_powerUp s) addr

/-! ### The block keeps the host's list (R8) -/

theorem issue_pending {command : Sys b → Sys b} {s : Sys b} (h : (command s).pending = s.pending) :
    (issue command s).pending = s.pending := by
  rcases issue_cases command s with ⟨-, hi⟩ | ⟨-, hi⟩
  · rw [hi]
  · rw [hi, h]

theorem commandEffect_pending (c : Command) (s : Sys b) : (commandEffect c s).pending = s.pending := by
  obtain ⟨_, _, _, _, _, _, _, h⟩ := (commandEffect_keepsOthers c s).registers
  rw [h]

theorem commandWord_pending (word : BitVec 8) (s : Sys b) : (commandWord word s).pending = s.pending := by
  cases hd : decodeCommand word with
  | none => rw [commandWord_of_none hd, raise_pending]
  | some c => rw [commandWord_of_some hd, commandEffect_pending]

theorem portWrite_pending (r : Reg) (v : Nat) (s : Sys b) : (portWrite r v s).pending = s.pending := by
  cases r with
  | CMD => exact issue_pending (commandWord_pending _ s)
  | A | B | C | K | CF | PA | NA | PB | NB | IDX | STATUS | reserved => rfl

/-! ### What completes (R149) -/

/-- From `s` the outcome `o` is a next state of the same build, with the same lines of the host still to come. -/
def Completes (s : Sys b) (o : Host.Outcome State Fault Refusal) : Prop :=
  ∃ t : Sys b, o = .next ⟨b, t⟩ ∧ t.pending = s.pending

/-- A write that the port can carry is run whole, in whichever spelling it decodes to (R61). -/
theorem exec_decodeWrite {r : Reg} {v : Nat} (hv : v < 2 ^ r.width b) (s : Sys b) :
    exec (decodeWrite r v) ⟨b, s⟩ = .next ⟨b, portWrite r v s⟩ := by
  rcases decodeWrite_cases hv with ⟨c, rfl, rfl⟩ | ⟨-, hself⟩
  · rw [decodeWrite_opcode, ← exec_wr_opcode, exec_wr_of_fits hv]
  · rw [hself, exec_wr_of_fits hv]

theorem exec_completes_of_decode {t : Transaction} {i : Instr} (h : decode b t = .ok i) (s : Sys b) :
    Completes s (exec i ⟨b, s⟩) := by
  rcases decode_ok_cases h with ⟨r, -, rfl⟩ | ⟨r, v, hv, -, rfl⟩
  · exact ⟨_, exec_rd s r, rfl⟩
  · exact ⟨_, exec_decodeWrite hv s, portWrite_pending r v s⟩

theorem lineOk_port_iff {t : Transaction} : lineOk b (.port t) = true ↔ ∃ i, decode b t = .ok i := by
  cases h : decode b t with
  | ok i => exact ⟨fun _ => ⟨i, rfl⟩, fun _ => congrArg Except.isOk h⟩
  | error why => exact ⟨fun hok => (Bool.false_ne_true ((congrArg Except.isOk h).symm.trans hok)).elim, nofun⟩

theorem runLine_completes {line : HostLine b.W} (h : lineOk b line = true) (s : Sys b) :
    Completes s (runLine line s) := by
  cases line with
  | port t =>
    obtain ⟨i, hi⟩ := lineOk_port_iff.1 h
    exact runLine_port_of_decode hi ▸ exec_completes_of_decode hi s
  | mw addr v => exact ⟨_, hostWrite_of_cell v (of_decide_eq_true h), rfl⟩
  | mr addr => exact ⟨_, hostRead_of_cell (of_decide_eq_true h), rfl⟩
  | reset => exact ⟨_, rfl, resetRegisters_pending s⟩

/-! ### The statements -/

/-- Settles O56: the step takes the line from the list, and a line that may be held completes on what is left. -/
theorem presentableLinesComplete : Obligations.PresentableLinesComplete := by
  intro b s line rest hp hok
  rw [step_of_pending_cons hp]
  exact runLine_completes hok (takeLine rest s)

/-- Settles O50: `RESET` takes its line and gives the registers their reset values. -/
theorem resetClearsRegistersAndKeepsMemory : Obligations.ResetClearsRegistersAndKeepsMemory := fun _ s rest hp =>
  ⟨resetRegisters (takeLine rest s), step_reset hp, rfl, rfl, rfl, rfl, rfl, rfl, rfl, rfl, rfl, rfl, rfl,
    resetRegisters_halted _, resetRegisters_faultO _, rfl,
    fun addr => resetRegisters_cell addr (takeLine rest s), rfl⟩

end Sys2Proof.Machine
end
